-- ==== Sys2Proof/Word.lean ====
section
/-! DEFINITION. The widths of the machine: the 8-bit cell, the hexadecimal digit, the packed 24-bit word and the input line (00_scope.md R6, R7). -/

namespace Sys2Proof

/-- A byte: the width of a tape cell, of a direct address and of an operand field (R6, R7). -/
abbrev Byte := BitVec 8

/-- One hexadecimal digit, 0 to 15: the width of the opcode and of the flag field (R7, R82). -/
abbrev Digit := BitVec 4

/-- The packed form of a well-formed instruction word, six digits, leftmost in bits 23:20 (R7, R83). -/
abbrev Packed := BitVec 24

/-- One line of the input stream: its bytes, without the line terminator (10_state.md R33). -/
abbrev Line := List Byte

end Sys2Proof
end

