-- ==== Sys2Proof/Machine/Flags.lean ====
section
/-! DEFINITION. The machine has no flags, condition codes or predicates (10_state.md R27, 45_arithmetic.md R219). The one condition an operation tests is a zero divisor (45_arithmetic.md R217). -/

namespace Sys2Proof.Machine

/-- The zero test of Div and Mod, made on the resolved value (R217). -/
def divisorIsZero (b : Byte) : Bool := b == 0

end Sys2Proof.Machine
end

