-- ==== Sys2Proof/Config.lean ====
section
/-! DEFINITION. The implementation parameters of 00_scope.md R5, as plain data: a machine is built with one `Config`, no step writes it (10_state.md R36), and claims quantify over it. The spec's default values are in Sys2Proof/Machine/Defaults.lean. -/

namespace Sys2Proof

/-- The exit statuses (10_state.md R25). -/
inductive ExitStatus where
  | ok
  | programException
  | rainbowException
  | internalException
  | unknown
  deriving DecidableEq, Repr

/-- The two classes a fault can have (00_scope.md R7, 60_exceptions.md R244). -/
inductive FaultClass where
  | rainbowException
  | internalException
  deriving DecidableEq, Repr

/-- How Print renders a cell (10_state.md R31, 43_io.md R152). -/
inductive OutputMode where
  | ascii
  | decimal
  | hex
  deriving DecidableEq, Repr

/-- `OPMAP`: the opcode digit of each of the twelve opcodes (R5, 30_encoding.md R88). -/
structure OpMap where
  exit : Digit
  set : Digit
  print : Digit
  input : Digit
  label : Digit
  lookBack : Digit
  lookAhead : Digit
  add : Digit
  sub : Digit
  mul : Digit
  div : Digit
  mod : Digit
  deriving DecidableEq, Repr

/-- `STATUS_CODE`: the numeric code of each exit status (R5, 10_state.md R25). -/
structure StatusCodes where
  ok : Byte
  programException : Byte
  rainbowException : Byte
  internalException : Byte
  unknown : Byte
  deriving DecidableEq, Repr

/-- The parameters of R5. `N` and `prog` are in `State.prog`, where the fetch reads them. -/
structure Config where
  /-- `S`: the number of tape cells. -/
  tapeSize : Nat
  /-- `OUTPUT_MODE`. -/
  outputMode : OutputMode
  /-- `OPMAP`. -/
  opMap : OpMap
  /-- `IND_MARK`: the flag digit that selects indirect mode. -/
  indMark : Digit
  /-- `STATUS_CODE`. -/
  statusCode : StatusCodes
  /-- `OOR_CLASS`: the class of an out-of-range tape access. -/
  oorClass : FaultClass
  /-- `NUM_MARKER`: what Input leaves in the sentinel cell after a numeric line. -/
  numMarker : Byte
  /-- `DELIM`: what Print puts between two cells in Decimal and Hex mode. -/
  delim : List Byte
  /-- `TAPE_INIT`: the tape at reset, as the cells that are not zero (log entry 4). -/
  tapeInit : List Host.Cell
  deriving DecidableEq, Repr

end Sys2Proof
end

