-- ==== Sys2Proof/Machine/Defaults.lean ====
section
/-! DEFINITION. The default values the spec gives the parameters of 00_scope.md R5 (92_eei_decisions.md; log entries 2 and 3). -/

namespace Sys2Proof

/-- The default `OPMAP`: the order of the enumeration, from 0 (R88, D1). -/
def OpMap.default : OpMap :=
  { exit := 0x0, set := 0x1, print := 0x2, input := 0x3, label := 0x4, lookBack := 0x5,
    lookAhead := 0x6, add := 0x7, sub := 0x8, mul := 0x9, div := 0xA, mod := 0xB }

/-- The default `STATUS_CODE` (R5, R25, D4). -/
def StatusCodes.default : StatusCodes :=
  { ok := 0, programException := 1, rainbowException := 2, internalException := 3, unknown := 4 }

/-- The default configuration of R5. `OUTPUT_MODE` has no default there: ASCII is this model's
choice for reset (log entry 3). -/
def Config.default : Config :=
  { tapeSize := 256
    outputMode := .ascii
    opMap := OpMap.default
    indMark := 0x1
    statusCode := StatusCodes.default
    oorClass := .rainbowException
    numMarker := 0x00
    delim := [0x2D]
    tapeInit := [] }

end Sys2Proof
end

