-- ==== Sys2Proof/Syntax.lean ====
section
/-! DEFINITION. The twelve instructions, one constructor per row of spec/opcode_table.json, and the program word (30_encoding.md R80, R81, R82, R88). -/

namespace Sys2Proof

/-- The opcode set, in the order of the enumeration of 30_encoding.md R88. -/
inductive Opcode where
  | exit
  | set
  | print
  | input
  | label
  | lookBack
  | lookAhead
  | add
  | sub
  | mul
  | div
  | mod
  deriving DecidableEq, Repr

/-- Every opcode, in the order of R88. -/
def Opcode.all : List Opcode :=
  [.exit, .set, .print, .input, .label, .lookBack, .lookAhead, .add, .sub, .mul, .div, .mod]

/-- An instruction of the one format (R81): its direct address, its flag digit and its operand
field. The fields an opcode ignores (R89) are kept, so that a word and its instruction carry the
same information (log entry 13). -/
inductive Instr where
  | exit (da : Byte) (flag : Digit) (operand : Byte)
  | set (da : Byte) (flag : Digit) (operand : Byte)
  | print (da : Byte) (flag : Digit) (operand : Byte)
  | input (da : Byte) (flag : Digit) (operand : Byte)
  | label (da : Byte) (flag : Digit) (operand : Byte)
  | lookBack (da : Byte) (flag : Digit) (operand : Byte)
  | lookAhead (da : Byte) (flag : Digit) (operand : Byte)
  | add (da : Byte) (flag : Digit) (operand : Byte)
  | sub (da : Byte) (flag : Digit) (operand : Byte)
  | mul (da : Byte) (flag : Digit) (operand : Byte)
  | div (da : Byte) (flag : Digit) (operand : Byte)
  | mod (da : Byte) (flag : Digit) (operand : Byte)
  deriving DecidableEq, Repr

/-- The opcode of an instruction. -/
def Instr.opcode : Instr → Opcode
  | .exit _ _ _ => .exit
  | .set _ _ _ => .set
  | .print _ _ _ => .print
  | .input _ _ _ => .input
  | .label _ _ _ => .label
  | .lookBack _ _ _ => .lookBack
  | .lookAhead _ _ _ => .lookAhead
  | .add _ _ _ => .add
  | .sub _ _ _ => .sub
  | .mul _ _ _ => .mul
  | .div _ _ _ => .div
  | .mod _ _ _ => .mod

/-- The direct address field `da` (R82). -/
def Instr.da : Instr → Byte
  | .exit da _ _ => da
  | .set da _ _ => da
  | .print da _ _ => da
  | .input da _ _ => da
  | .label da _ _ => da
  | .lookBack da _ _ => da
  | .lookAhead da _ _ => da
  | .add da _ _ => da
  | .sub da _ _ => da
  | .mul da _ _ => da
  | .div da _ _ => da
  | .mod da _ _ => da

/-- The addressing-mode flag digit (R82). -/
def Instr.flag : Instr → Digit
  | .exit _ flag _ => flag
  | .set _ flag _ => flag
  | .print _ flag _ => flag
  | .input _ flag _ => flag
  | .label _ flag _ => flag
  | .lookBack _ flag _ => flag
  | .lookAhead _ flag _ => flag
  | .add _ flag _ => flag
  | .sub _ flag _ => flag
  | .mul _ flag _ => flag
  | .div _ flag _ => flag
  | .mod _ flag _ => flag

/-- The operand field (R82). -/
def Instr.operand : Instr → Byte
  | .exit _ _ operand => operand
  | .set _ _ operand => operand
  | .print _ _ operand => operand
  | .input _ _ operand => operand
  | .label _ _ operand => operand
  | .lookBack _ _ operand => operand
  | .lookAhead _ _ operand => operand
  | .add _ _ operand => operand
  | .sub _ _ operand => operand
  | .mul _ _ operand => operand
  | .div _ _ operand => operand
  | .mod _ _ operand => operand

/-- The instruction of an opcode and the three other fields. -/
def Instr.ofFields (op : Opcode) (da : Byte) (flag : Digit) (operand : Byte) : Instr :=
  match op with
  | .exit => .exit da flag operand
  | .set => .set da flag operand
  | .print => .print da flag operand
  | .input => .input da flag operand
  | .label => .label da flag operand
  | .lookBack => .lookBack da flag operand
  | .lookAhead => .lookAhead da flag operand
  | .add => .add da flag operand
  | .sub => .sub da flag operand
  | .mul => .mul da flag operand
  | .div => .div da flag operand
  | .mod => .mod da flag operand

/-- The digit `OPMAP` gives an opcode (R88). -/
def OpMap.digit (m : OpMap) : Opcode → Digit
  | .exit => m.exit
  | .set => m.set
  | .print => m.print
  | .input => m.input
  | .label => m.label
  | .lookBack => m.lookBack
  | .lookAhead => m.lookAhead
  | .add => m.add
  | .sub => m.sub
  | .mul => m.mul
  | .div => m.div
  | .mod => m.mod

/-- A program word (30_encoding.md R80): six hexadecimal digits, packed, or a word the loader could
not render as six digits (`bad = 1`, whose 24 bits are ignored; log entry 14). -/
inductive ProgWord where
  | word (w : Packed)
  | malformed
  deriving DecidableEq, Repr

end Sys2Proof
end

