-- ==== Sys2Proof/Decode.lean ====
section
/-! DEFINITION. The Instruction Decoder, total on every program word and rejecting by name, and the encoder after it, written from the same field table (30_encoding.md R80 to R85, R88, R91 to R93). -/

namespace Sys2Proof

/-- Field `opcode`, bits 23:20 (R82). -/
def opcodeField (w : Packed) : Digit := w.extractLsb' 20 4

/-- Field `da`, bits 19:12 (R82). -/
def daField (w : Packed) : Byte := w.extractLsb' 12 8

/-- Field `flag`, bits 11:8 (R82). -/
def flagField (w : Packed) : Digit := w.extractLsb' 8 4

/-- Field `operand`, bits 7:0 (R82). -/
def operandField (w : Packed) : Byte := w.extractLsb' 0 8

/-- `OPMAP_inverse`: the opcode a digit selects, if any (R84, R88). -/
def OpMap.opcode? (m : OpMap) (d : Digit) : Option Opcode :=
  Opcode.all.find? fun op => m.digit op == d

/-- Why the decoder rejects a word (R84): both raise the one `DecodeFault` (R241). -/
inductive DecodeReject where
  /-- The word is not six hexadecimal digits (R93). -/
  | malformedWord
  /-- The opcode digit maps to no opcode (R91). -/
  | illegalOpcode (d : Digit)
  deriving DecidableEq, Repr

/-- What the decoder answers. -/
inductive Decoded where
  | instr (i : Instr)
  | reject (r : DecodeReject)
  deriving DecidableEq, Repr

/-- `Decode(word)`: a pure function of the word (R84). -/
def decode (c : Config) : ProgWord → Decoded
  | .malformed => .reject .malformedWord
  | .word w =>
    match c.opMap.opcode? (opcodeField w) with
    | none => .reject (.illegalOpcode (opcodeField w))
    | some op => .instr (Instr.ofFields op (daField w) (flagField w) (operandField w))

/-- The word of an instruction: opcode digit, direct address, flag, operand, left to right (R81, R83). -/
def encode (c : Config) (i : Instr) : Packed :=
  c.opMap.digit i.opcode ++ i.da ++ i.flag ++ i.operand

/-- `hex2(a, b) = 16*a + b` (R7, R85). -/
def hex2 (a b : Digit) : Byte := a ++ b

/-- The packed form of six digits, `d0` leftmost (R83). -/
def packDigits (d0 d1 d2 d3 d4 d5 : Digit) : Packed :=
  d0 ++ d1 ++ d2 ++ d3 ++ d4 ++ d5

/-- The program word of the digit values a loader supplies for one position: well-formed exactly
when there are six of them, each 0 to 15 (R80). -/
def ProgWord.ofDigits : List Nat → ProgWord
  | [d0, d1, d2, d3, d4, d5] =>
    if d0 < 16 && d1 < 16 && d2 < 16 && d3 < 16 && d4 < 16 && d5 < 16 then
      .word (packDigits (.ofNat 4 d0) (.ofNat 4 d1) (.ofNat 4 d2) (.ofNat 4 d3) (.ofNat 4 d4)
        (.ofNat 4 d5))
    else .malformed
  | _ => .malformed

/-- The program word of a number of `nbits` bits: the packed word it is (R81, R83) when it is one of
24 bits, and malformed otherwise, a word of the wrong length (R80, D28). -/
def ProgWord.ofTableWord (nbits w : Nat) : ProgWord :=
  if nbits = 24 ∧ w < 2 ^ 24 then .word (.ofNat 24 w) else .malformed

/-- The instruction the decoder reads from a word numbered as spec/opcode_table.json numbers it,
under the default configuration. -/
def decodeTableWord (nbits w : Nat) : Option Instr :=
  match decode Config.default (.ofTableWord nbits w) with
  | .instr i => some i
  | .reject _ => none

end Sys2Proof
end

