-- ==== Sys2Proof/Machine/Memory.lean ====
section
/-! DEFINITION. The Memory Tape as data: cells by address in one canonical form (10_state.md R23, 20_memory.md R50, R51, R60). -/

namespace Sys2Proof.Machine

/-- The tape: its non-zero cells, addresses strictly rising. An address that is not listed reads as
`unlistedCell`. -/
abbrev Memory := List Host.Cell

/-- What a cell that is not listed reads as. The spec's default for a cell nothing has written is 0
(92_eei_decisions.md D6); other reset contents are `Config.tapeInit` (log entry 4). -/
def unlistedCell (_a : Nat) : Byte := 0

/-- The content of the cell at an address. -/
def Memory.read : Memory → Nat → Byte
  | [], a => unlistedCell a
  | (k, b) :: m, a => if k = a then b else Memory.read m a

/-- The tape after one cell is written. Writing what an unlisted cell reads as removes the entry. -/
def Memory.write : Memory → Nat → Byte → Memory
  | [], a, v => if v = unlistedCell a then [] else [(a, v)]
  | (k, b) :: m, a, v =>
    if a < k then
      if v = unlistedCell a then (k, b) :: m else (a, v) :: (k, b) :: m
    else if a = k then
      if v = unlistedCell a then m else (a, v) :: m
    else
      (k, b) :: Memory.write m a v

/-- The canonical form: addresses strictly rising, no entry equal to what an unlisted cell reads as. -/
def Memory.wf : Memory → Bool
  | [] => true
  | (k, b) :: m => b != unlistedCell k && m.all (fun c => decide (k < c.1)) && Memory.wf m

/-- Every listed cell is one of the `size` cells of the tape (20_memory.md R51, R66). -/
def Memory.within (m : Memory) (size : Nat) : Bool :=
  m.all (fun c => decide (c.1 < size))

end Sys2Proof.Machine
end

