-- ==== Sys2Proof/Machine/State.lean ====
section
/-! DEFINITION. The state of the machine as plain data, the reasons a step can stop, and reset (10_state.md R20 to R36, 70_reset_and_hazards.md R280, R281). -/

namespace Sys2Proof.Machine

/-- The run state (10_state.md R24). -/
inductive RunState where
  | running
  | haltedOk
  | haltedFault
  deriving DecidableEq, Repr

/-- The faults of the spec (60_exceptions.md R240 to R243). Taking one is a next state (R246), not a
`Fault` of this model. -/
inductive FaultKind where
  /-- The word decoded is malformed or its opcode digit names no opcode (R241). -/
  | decodeFault
  /-- A tape access at an address `a >= S` (R242). -/
  | tapeRange (a : Nat)
  /-- Div or Mod by zero (R243). -/
  | divideByZero
  deriving DecidableEq, Repr

/-- The cause record of a fault (10_state.md R26): what happened, the index of the instruction
executing, and, for a fault met by a label search, the index of the inspected word (R189, R241). -/
structure CauseRecord where
  kind : FaultKind
  index : Nat
  inspected : Option Nat
  deriving DecidableEq, Repr

/-- Why a step does not exist. Neither is one of the spec's faults: those are next states. -/
inductive Fault where
  /-- Raised by `step` in a state whose `run` is not `running`: "A halted machine takes no step"
  (40_engine.md R118). Safe: nothing follows a halt in the spec (log entry 9). -/
  | halted
  /-- Raised by Input while no unconsumed line is available: "the Input instruction has no step"
  (43_io.md R166). Safe: a run that waits has no next state until the host supplies a line
  (log entry 10). -/
  | waitingForLine
  deriving DecidableEq, Repr

/-- Why the model gives an instruction no meaning. -/
inductive Refusal where
  /-- Raised by an arm of `exec` whose instruction has no meaning yet; no arm raises it. Safe. -/
  | notModelled (mnemonic : String)
  deriving DecidableEq, Repr

/-- The whole machine. -/
structure State where
  /-- The construction parameters (00_scope.md R5). No step writes them (R36). -/
  cfg : Config
  /-- The program store `prog[0..N-1]`; `N` is its length. No step writes it (R30, R64). -/
  prog : List ProgWord
  /-- The program counter, an index of instruction words (R21). -/
  pc : Nat
  /-- The Memory Tape (R23). -/
  tape : Memory
  /-- The run state (R24). -/
  run : RunState
  /-- The exit status, meaningless while `run` is `running` (R25). -/
  status : ExitStatus
  /-- The cause record of the fault that ended the run, if one did (R26). -/
  cause : Option CauseRecord
  /-- The output stream: every byte emitted so far (R32). -/
  out : List Byte
  /-- The input stream: every line the host has supplied so far (R33). -/
  inp : List Line
  /-- How many of those lines Input has consumed (R33, 70_reset_and_hazards.md R286). -/
  consumed : Nat
  deriving DecidableEq, Repr

/-- `N`, the program length in words (R5, R30). -/
def State.progLength (s : State) : Nat := s.prog.length

/-- Reset is construction: the host supplies the configuration, the program and the input lines, and
every piece of state takes its reset value (R35, R280, R281). The reset value of `status` is the
model's choice (log entry 5). -/
def State.construct (cfg : Config) (prog : List ProgWord) (inp : List Line) : State :=
  { cfg := cfg
    prog := prog
    pc := 0
    tape := cfg.tapeInit
    run := .running
    status := .ok
    cause := none
    out := []
    inp := inp
    consumed := 0 }

/-- The machine right after reset, nothing placed in it: the default configuration, no program, no
input line (log entries 3, 6 and 7). -/
def State.reset : State := State.construct Config.default [] []

end Sys2Proof.Machine
end

