-- ==== Sys2Proof/Machine/Ops.lean ====
section
/-! DEFINITION. The operations every instruction is made of: tape access, program access, the streams, halting, the advance, and fault entry (00_scope.md R7, 20_memory.md R52, R58, 40_engine.md R111, R116, 60_exceptions.md R246). There is no return from a fault (R247), so no operation stands beside fault entry. -/

namespace Sys2Proof.Machine

/-- What `raise Fault(class, cause)` carries (R7): the kind, and the index a search was inspecting. -/
structure Raise where
  kind : FaultKind
  inspected : Option Nat
  deriving DecidableEq, Repr

/-- The result of a part of an instruction: a value, or a raised fault. -/
inductive Res (α : Type) where
  | ok (a : α)
  | raise (r : Raise)
  deriving DecidableEq, Repr

/-- Sequence: a raised fault abandons what follows (R246). -/
def Res.bind {α β : Type} (x : Res α) (f : α → Res β) : Res β :=
  match x with
  | .ok a => f a
  | .raise r => .raise r

/-- Apply a function to the value, if there is one. -/
def Res.map {α β : Type} (f : α → β) (x : Res α) : Res β :=
  match x with
  | .ok a => .ok (f a)
  | .raise r => .raise r

/-- A fault raised by the instruction itself, not by a word a search inspects. -/
def raiseKind {α : Type} (k : FaultKind) : Res α := .raise { kind := k, inspected := none }

/-- The fault of a word a search inspects at index `i` records `i` (44_control_flow.md R189). -/
def Res.inspectedAt {α : Type} (i : Nat) (x : Res α) : Res α :=
  match x with
  | .ok a => .ok a
  | .raise r => .raise { r with inspected := some i }

/-- `MemRead(a, 1)` (R7, R58). -/
def memRead (s : State) (a : Nat) : Res Byte :=
  if a < s.cfg.tapeSize then .ok (s.tape.read a) else raiseKind (.tapeRange a)

/-- The state with another tape. -/
def State.withTape (s : State) (m : Memory) : State := { s with tape := m }

/-- `MemWrite(a, 1, v)` (R7, R58). -/
def memWrite (s : State) (a : Nat) (v : Byte) : Res State :=
  if a < s.cfg.tapeSize then .ok (s.withTape (s.tape.write a v))
  else raiseKind (.tapeRange a)

/-- `ProgRead(i)`, defined for `0 <= i < N` only (20_memory.md R52). -/
def progRead (s : State) (i : Nat) : Option ProgWord := s.prog[i]?

/-- The start check of Print and Input (43_io.md R150). -/
def checkStart (s : State) (a : Nat) : Res Unit :=
  if a < s.cfg.tapeSize then .ok () else raiseKind (.tapeRange a)

/-- `emit` of a sequence of bytes: they go to the end of `out` (R7, 10_state.md R32). -/
def State.emitAll (s : State) (bs : List Byte) : State := { s with out := s.out ++ bs }

/-- The next unconsumed line, if the host has supplied one (10_state.md R33, 43_io.md R166). -/
def State.nextLine (s : State) : Option Line := s.inp[s.consumed]?

/-- The next line is now consumed (43_io.md R160). -/
def State.consumeLine (s : State) : State := { s with consumed := s.consumed + 1 }

/-- The host supplies one more line (10_state.md R33, 43_io.md R166). No step does this: it is what
the outside world does to a waiting machine (log entry 16). -/
def State.supplyLine (s : State) (line : Line) : State := { s with inp := s.inp ++ [line] }

/-- The advance: `pc <- pc + 1`, not checked against `N` (40_engine.md R116). -/
def State.advance (s : State) : State := { s with pc := s.pc + 1 }

/-- `halt(st)`: the run ends without a fault (R7). -/
def State.halt (s : State) (st : ExitStatus) : State := { s with run := .haltedOk, status := st }

/-- The class of a fault, as the status it leaves (60_exceptions.md R241, R242, R243). -/
def FaultKind.status (c : Config) : FaultKind → ExitStatus
  | .decodeFault => .rainbowException
  | .tapeRange _ =>
    match c.oorClass with
    | .rainbowException => .rainbowException
    | .internalException => .internalException
  | .divideByZero => .rainbowException

/-- Fault entry (60_exceptions.md R246): `run`, `status` and `cause` are written, nothing else. `pc`
keeps the index of the instruction executing, and the cause records it. -/
def State.takeFault (s : State) (r : Raise) : State :=
  { s with
    run := .haltedFault
    status := r.kind.status s.cfg
    cause := some { kind := r.kind, index := s.pc, inspected := r.inspected } }

/-- The end of an instruction begun in `s`: its result, or fault entry with none of its writes made
(R246). -/
def settle (s : State) (x : Res State) : Host.Outcome State Fault Refusal :=
  match x with
  | .ok t => .next t
  | .raise r => .next (s.takeFault r)

end Sys2Proof.Machine
end

