-- ==== Sys2Proof/Machine/Operands.lean ====
section
/-! DEFINITION. The Value Resolver: the two operand forms, immediate and indirect (30_encoding.md R86, R87), and the shape every instruction shares: resolve, run the arm, settle (40_engine.md R114 to R116). -/

namespace Sys2Proof.Machine

/-- A Value Part: the resolved value and the address it came from, 0 in immediate mode (R86). -/
structure ValuePart where
  value : Byte
  address : Nat
  deriving DecidableEq, Repr

/-- `Resolve(flag, operand)` (R86): the flag digit alone selects the mode, for every opcode (R87). -/
def resolve (s : State) (flag : Digit) (operand : Byte) : Res ValuePart :=
  if flag = s.cfg.indMark then
    (memRead s operand.toNat).map fun v => { value := v, address := operand.toNat }
  else
    .ok { value := operand, address := 0 }

/-- An instruction that does not advance: resolve, then the arm (R114, R115, R117). -/
def runArm (s : State) (flag : Digit) (operand : Byte) (arm : ValuePart → Res State) :
    Host.Outcome State Fault Refusal :=
  settle s ((resolve s flag operand).bind arm)

/-- An instruction that advances after its arm (R114, R115, R116). -/
def runArmAdvance (s : State) (flag : Digit) (operand : Byte) (arm : ValuePart → Res State) :
    Host.Outcome State Fault Refusal :=
  runArm s flag operand fun vp => (arm vp).map State.advance

end Sys2Proof.Machine
end

