-- ==== Sys2Proof/Machine/Arithmetic.lean ====
section
/-! DEFINITION. Add, Sub, Mul, Div and Mod: 8-bit unsigned arithmetic with wraparound (45_arithmetic.md R210 to R221). -/

namespace Sys2Proof.Machine

/-- The arithmetic opcodes. -/
inductive ArithOp where
  | add
  | sub
  | mul
  | div
  | mod
  deriving DecidableEq, Repr

/-- `Alu(op, a, b)` (R216, R221): the exact result on integers, narrowed modulo 256; a zero divisor
raises DivideByZero (R217). -/
def alu (op : ArithOp) (a b : Byte) : Res Byte :=
  match op with
  | .add => .ok (.ofNat 8 (a.toNat + b.toNat))
  | .sub => .ok (.ofInt 8 ((a.toNat : Int) - (b.toNat : Int)))
  | .mul => .ok (.ofNat 8 (a.toNat * b.toNat))
  | .div => if divisorIsZero b then raiseKind .divideByZero else .ok (.ofNat 8 (a.toNat / b.toNat))
  | .mod => if divisorIsZero b then raiseKind .divideByZero else .ok (.ofNat 8 (a.toNat % b.toNat))

/-- The common shape (R210): the cell is read, combined with the resolved value, and written back. -/
def arith (op : ArithOp) (da : Byte) (flag : Digit) (operand : Byte) (s : State) :
    Host.Outcome State Fault Refusal :=
  runArmAdvance s flag operand fun vp =>
    (memRead s da.toNat).bind fun a =>
      (alu op a vp.value).bind fun r => memWrite s da.toNat r

/-- Add (R211). -/
def execAdd (da : Byte) (flag : Digit) (operand : Byte) (s : State) :
    Host.Outcome State Fault Refusal :=
  arith .add da flag operand s

/-- Sub (R212). -/
def execSub (da : Byte) (flag : Digit) (operand : Byte) (s : State) :
    Host.Outcome State Fault Refusal :=
  arith .sub da flag operand s

/-- Mul (R213). -/
def execMul (da : Byte) (flag : Digit) (operand : Byte) (s : State) :
    Host.Outcome State Fault Refusal :=
  arith .mul da flag operand s

/-- Div (R214). -/
def execDiv (da : Byte) (flag : Digit) (operand : Byte) (s : State) :
    Host.Outcome State Fault Refusal :=
  arith .div da flag operand s

/-- Mod (R215). -/
def execMod (da : Byte) (flag : Digit) (operand : Byte) (s : State) :
    Host.Outcome State Fault Refusal :=
  arith .mod da flag operand s

end Sys2Proof.Machine
end

