-- ==== Sys2Proof/Machine/Control.lean ====
section
/-! DEFINITION. Label, LookBack and LookAhead: the label-search control-flow unit (44_control_flow.md R180 to R193). -/

namespace Sys2Proof.Machine

/-- Label in linear execution (R180): nothing but the advance. -/
def execLabel (_da : Byte) (flag : Digit) (operand : Byte) (s : State) :
    Host.Outcome State Fault Refusal :=
  runArmAdvance s flag operand fun _ => .ok s

/-- The match test on a decoded word: it is a Label whose value is `v` (R181). -/
def labelCarries (i : Instr) (vp : ValuePart) (v : Byte) : Bool :=
  i.opcode == .label && vp.value == v

/-- The word at an index, decoded and resolved as the instruction at `pc` would be (R181). An index
outside the program holds no word and so no Label; no search from a fetched instruction asks for one
(20_memory.md R52; log entry 12). -/
def inspectWord (s : State) (w : Option ProgWord) (v : Byte) : Res Bool :=
  match w with
  | none => .ok false
  | some w =>
    match decode s.cfg w with
    | .reject _ => raiseKind .decodeFault
    | .instr i => (resolve s i.flag i.operand).map fun vp => labelCarries i vp v

/-- `Matches(i, v)`; a fault met here records the inspected index (R181, R189). -/
def labelMatches (s : State) (i : Nat) (v : Byte) : Res Bool :=
  (inspectWord s (progRead s i) v).inspectedAt i

/-- `SearchBack(i, v)`: indices `i, i-1, ..., 1`, the first match; 0 when there is none, index 0
itself never inspected (R183, R184, R185). -/
def searchBack (s : State) (v : Byte) : Nat → Res Nat
  | 0 => .ok 0
  | i + 1 => (labelMatches s (i + 1) v).bind fun m => if m then .ok (i + 1) else searchBack s v i

/-- `SearchAhead` from index `i` with `n` indices left before the last one: the first match, or the
last index `N - 1`, itself never inspected (R186, R187, R188). -/
def searchAheadFrom (s : State) (v : Byte) (i : Nat) : Nat → Res Nat
  | 0 => .ok (s.progLength - 1)
  | n + 1 => (labelMatches s i v).bind fun m => if m then .ok i else searchAheadFrom s v (i + 1) n

/-- `SearchAhead(p, v)`: indices `p, p+1, ..., N-2` (R186). -/
def searchAhead (s : State) (v : Byte) (p : Nat) : Res Nat :=
  searchAheadFrom s v p (s.progLength - 1 - p)

/-- The program counter at the index where a search stopped (R183, R186). -/
def State.jumpTo (s : State) (i : Nat) : State := { s with pc := i }

/-- LookBack (R183): the search, then the normal advance. -/
def execLookBack (_da : Byte) (flag : Digit) (operand : Byte) (s : State) :
    Host.Outcome State Fault Refusal :=
  runArmAdvance s flag operand fun vp => (searchBack s vp.value s.pc).map s.jumpTo

/-- LookAhead (R186): the search, then the normal advance. -/
def execLookAhead (_da : Byte) (flag : Digit) (operand : Byte) (s : State) :
    Host.Outcome State Fault Refusal :=
  runArmAdvance s flag operand fun vp => (searchAhead s vp.value s.pc).map s.jumpTo

end Sys2Proof.Machine
end

