-- ==== Sys2Proof/Machine/Exit.lean ====
section
/-! DEFINITION. Exit and the status mapping (41_exit.md R130 to R132). -/

namespace Sys2Proof.Machine

/-- `StatusOf(v)`: the status whose code is `v`, else Unknown (R131). -/
def statusOf (k : StatusCodes) (v : Byte) : ExitStatus :=
  if v = k.ok then .ok
  else if v = k.programException then .programException
  else if v = k.rainbowException then .rainbowException
  else if v = k.internalException then .internalException
  else .unknown

/-- Exit (R130): the run ends with the status of the resolved value; `pc` does not advance (R117). -/
def execExit (_da : Byte) (flag : Digit) (operand : Byte) (s : State) :
    Host.Outcome State Fault Refusal :=
  runArm s flag operand fun vp => .ok (s.halt (statusOf s.cfg.statusCode vp.value))

end Sys2Proof.Machine
end

