-- ==== Sys2Proof/Machine/Io.lean ====
section
/-! DEFINITION. Print, Input and the I/O Adapter (43_io.md R150 to R167). -/

namespace Sys2Proof.Machine

/-- The character code of a decimal digit 0 to 9 (R152). -/
def decimalChar (d : Nat) : Byte := .ofNat 8 (0x30 + d)

/-- The character code of an upper-case hexadecimal digit 0 to 15 (R152). -/
def hexChar (d : Nat) : Byte := if d < 10 then .ofNat 8 (0x30 + d) else .ofNat 8 (0x41 + (d - 10))

/-- The decimal digits of a cell, most significant first, no leading zero, `0` for zero (R152). -/
def renderDecimal (c : Byte) : List Byte :=
  if c.toNat < 10 then [decimalChar c.toNat]
  else if c.toNat < 100 then [decimalChar (c.toNat / 10), decimalChar (c.toNat % 10)]
  else [decimalChar (c.toNat / 100), decimalChar (c.toNat / 10 % 10), decimalChar (c.toNat % 10)]

/-- `Render(mode, c)` (R152, R153). -/
def render (mode : OutputMode) (c : Byte) : List Byte :=
  match mode with
  | .ascii => [c]
  | .decimal => renderDecimal c
  | .hex => [hexChar (c.toNat / 16), hexChar (c.toNat % 16)]

/-- What stands between two cells of one Print: nothing in ASCII mode, `DELIM` in the others (R152,
R154). -/
def separator (c : Config) : List Byte :=
  match c.outputMode with
  | .ascii => []
  | .decimal => c.delim
  | .hex => c.delim

/-- The bytes of one Print: each cell rendered, the separator between two cells, nothing before the
first or after the last (R151, R154). -/
def renderCells (c : Config) : List Byte → List Byte
  | [] => []
  | [b] => render c.outputMode b
  | b :: b' :: bs => render c.outputMode b ++ separator c ++ renderCells c (b' :: bs)

/-- The `n` cells from address `a` up, read one at a time in ascending order (R151, 20_memory.md
R56). -/
def readCells (s : State) (a : Nat) : Nat → Res (List Byte)
  | 0 => .ok []
  | n + 1 => (memRead s a).bind fun b => (readCells s (a + 1) n).map fun bs => b :: bs

/-- `PrintRange(start, end)` (R151). The range is empty when `end < start`. -/
def printRange (s : State) (first last : Nat) : Res State :=
  (checkStart s first).bind fun _ =>
    (readCells s first (last + 1 - first)).map fun bs => s.emitAll (renderCells s.cfg bs)

/-- Print (R151). -/
def execPrint (da : Byte) (flag : Digit) (operand : Byte) (s : State) :
    Host.Outcome State Fault Refusal :=
  runArmAdvance s flag operand fun vp => printRange s da.toNat vp.address

/-- An ASCII decimal digit, 0x30 to 0x39 (R161). -/
def isDigitByte (b : Byte) : Bool := decide (0x30 ≤ b.toNat) && decide (b.toNat ≤ 0x39)

/-- The value of an ASCII decimal digit (R161). -/
def digitValue (b : Byte) : Nat := b.toNat - 0x30

/-- `NumVal(line)`: the number the digits spell in base 10, most significant first (R161). -/
def numVal (line : Line) : Nat := line.foldl (fun acc b => acc * 10 + digitValue b) 0

/-- `IsNumeric(line)`: at least one byte, every byte a digit, and a value less than `S` (R161). -/
def isNumeric (c : Config) (line : Line) : Bool :=
  !line.isEmpty && line.all isDigitByte && decide (numVal line < c.tapeSize)

/-- The bytes of a line written to consecutive cells from `a` up (R163). -/
def writeLine (s : State) (a : Nat) : Line → Res State
  | [] => .ok s
  | b :: bs => (memWrite s a b).bind fun t => writeLine t (a + 1) bs

/-- Numeric mode: the number's low 8 bits, then the marker (R162, R165). -/
def inputNumber (s : State) (start sent : Nat) (line : Line) : Res State :=
  (memWrite s start (.ofNat 8 (numVal line))).bind fun t => memWrite t sent s.cfg.numMarker

/-- Text mode: the length check on the whole line, the bytes, then the low 8 bits of the address
after the last one (R163, R164, R165). -/
def inputText (s : State) (start sent : Nat) (line : Line) : Res State :=
  if start + line.length > s.cfg.tapeSize then raiseKind (.tapeRange s.cfg.tapeSize)
  else (writeLine s start line).bind fun t => memWrite t sent (.ofNat 8 (start + line.length))

/-- What Input does with its line (R160, R161). -/
def inputLine (s : State) (start sent : Nat) (line : Line) : Res State :=
  if isNumeric s.cfg line then inputNumber s start sent line else inputText s start sent line

/-- Input after its start check (R160): with no line available there is no step (R166); otherwise the
line is consumed, also when what follows faults (R246). -/
def inputFrom (s : State) (start sent : Nat) : Host.Outcome State Fault Refusal :=
  match s.nextLine with
  | none => .fault .waitingForLine
  | some line => settle s.consumeLine ((inputLine s.consumeLine start sent line).map State.advance)

/-- Input (R160): resolution, then the start check, both before any line is requested. -/
def execInput (da : Byte) (flag : Digit) (operand : Byte) (s : State) :
    Host.Outcome State Fault Refusal :=
  match (resolve s flag operand).bind fun vp => (checkStart s da.toNat).map fun _ => vp with
  | .raise r => .next (s.takeFault r)
  | .ok vp => inputFrom s da.toNat vp.address

end Sys2Proof.Machine
end

