-- ==== Sys2Proof/Machine/Move.lean ====
section
/-! DEFINITION. Set, the machine's data movement (42_set.md R140, R141). -/

namespace Sys2Proof.Machine

/-- Set (R140): `tape[da] <- vp.value`. -/
def execSet (da : Byte) (flag : Digit) (operand : Byte) (s : State) :
    Host.Outcome State Fault Refusal :=
  runArmAdvance s flag operand fun vp => memWrite s da.toNat vp.value

end Sys2Proof.Machine
end

