-- ==== Sys2Proof/Machine/Dispatch.lean ====
section
/-! DEFINITION. Dispatch: exactly one arm runs, chosen by the opcode (40_engine.md R115). -/

namespace Sys2Proof.Machine

/-- The meaning of each instruction, resolution and advance included (R114 to R117). -/
def exec (i : Instr) (s : State) : Host.Outcome State Fault Refusal :=
  match i with
  | .exit da flag operand => Sys2Proof.Machine.execExit da flag operand s
  | .set da flag operand => Sys2Proof.Machine.execSet da flag operand s
  | .print da flag operand => Sys2Proof.Machine.execPrint da flag operand s
  | .input da flag operand => Sys2Proof.Machine.execInput da flag operand s
  | .label da flag operand => Sys2Proof.Machine.execLabel da flag operand s
  | .lookBack da flag operand => Sys2Proof.Machine.execLookBack da flag operand s
  | .lookAhead da flag operand => Sys2Proof.Machine.execLookAhead da flag operand s
  | .add da flag operand => Sys2Proof.Machine.execAdd da flag operand s
  | .sub da flag operand => Sys2Proof.Machine.execSub da flag operand s
  | .mul da flag operand => Sys2Proof.Machine.execMul da flag operand s
  | .div da flag operand => Sys2Proof.Machine.execDiv da flag operand s
  | .mod da flag operand => Sys2Proof.Machine.execMod da flag operand s

end Sys2Proof.Machine
end

