-- ==== Sys2Proof/Machine/Fetch.lean ====
section
/-! DEFINITION. What stands around dispatch in a cycle: the end-of-program check, the fetch, the decoding of the word at `pc` (40_engine.md R110 to R113, R118), and placing a word where the fetch reads. -/

namespace Sys2Proof.Machine

/-- The end-of-program check (R111): the run ends with status Ok, nothing else changes. -/
def endOfProgram (s : State) : Host.Outcome State Fault Refusal := .next (s.halt .ok)

/-- A fetched word the decoder rejects: fault entry before any tape access (R113). -/
def undecodable (s : State) : Host.Outcome State Fault Refusal :=
  .next (s.takeFault { kind := .decodeFault, inspected := none })

/-- A halted machine takes no step (R118; log entry 9). -/
def noStep : Host.Outcome State Fault Refusal := .fault .halted

/-- The word at `pc`, if `pc < N` (R111, R112). -/
def fetch (s : State) : Option ProgWord := progRead s s.pc

/-- A program with the word `w` at index `i`: it replaces the word there, or the program is extended
up to `i`, positions the extension creates holding no instruction (log entry 8). -/
def placeWord (prog : List ProgWord) (i : Nat) (w : ProgWord) : List ProgWord :=
  match prog, i with
  | [], 0 => [w]
  | [], i + 1 => .malformed :: placeWord [] i w
  | _ :: ws, 0 => w :: ws
  | x :: ws, i + 1 => x :: placeWord ws i w

end Sys2Proof.Machine
end

