-- ==== Sys2Proof/Machine/Step.lean ====
section
/-! DEFINITION. One step is one dispatch cycle (40_engine.md R110, R119). -/

namespace Sys2Proof.Machine

/-- The step function (R119): end-of-program check, fetch, decode, then the instruction. -/
def step (s : State) : Host.Outcome State Fault Refusal :=
  match s.run with
  | .haltedOk => noStep
  | .haltedFault => noStep
  | .running =>
    match fetch s with
    | none => endOfProgram s
    | some w =>
      match decode s.cfg w with
      | .reject _ => undecodable s
      | .instr i => exec i s

/-- `s` with an instruction word in its program at `pc`, running, so that the next step fetches
exactly that word (log entries 7 and 8). -/
def State.withFetchWord (s : State) (nbits w : Nat) : State :=
  { s with run := .running, prog := placeWord s.prog s.pc (.ofTableWord nbits w) }

end Sys2Proof.Machine
end

