-- ==== Sys2Proof/Machine/Ports.lean ====
section
/-! DEFINITION. What the host sees of the machine, and the bit patterns of its configuration and status ports (10_state.md R31, R34, 92_eei_decisions.md D33). No step reads any of these. -/

namespace Sys2Proof.Machine

/-- The number of an output mode on a configuration port (R31, D33). -/
def outputModePort : OutputMode → Byte
  | .ascii => 0
  | .decimal => 1
  | .hex => 2

/-- The number of a run state on a status port (D33). -/
def runPort : RunState → Byte
  | .running => 0
  | .haltedOk => 1
  | .haltedFault => 2

/-- `STATUS_CODE(st)` (R25). -/
def statusCodeOf (k : StatusCodes) : ExitStatus → Byte
  | .ok => k.ok
  | .programException => k.programException
  | .rainbowException => k.rainbowException
  | .internalException => k.internalException
  | .unknown => k.unknown

/-- The exit status as the host may read it: not while the machine runs (R25, R34). -/
def State.exitStatus? (s : State) : Option ExitStatus :=
  match s.run with
  | .running => none
  | .haltedOk => some s.status
  | .haltedFault => some s.status

/-- The numeric value the host is presented once the run has halted (R34). -/
def State.statusPort? (s : State) : Option Byte :=
  s.exitStatus?.map (statusCodeOf s.cfg.statusCode)

end Sys2Proof.Machine
end

