-- ==== Sys2Proof/WellFormed.lean ====
section
/-! DEFINITION. What a configuration and an instruction must satisfy (00_scope.md R5 column "range", 70_reset_and_hazards.md R282). Every field value of an instruction is a legal encoding (30_encoding.md R94), so an instruction is ill-formed only where the configuration gives it no digit of its own. -/

namespace Sys2Proof

/-- `OPMAP` is injective (R5). -/
def OpMap.wf (m : OpMap) : Bool := decide (Opcode.all.map m.digit).Nodup

/-- `STATUS_CODE` is injective and gives Ok the code 0 (R5). -/
def StatusCodes.wf (k : StatusCodes) : Bool :=
  decide (k.ok = 0) &&
    decide [k.ok, k.programException, k.rainbowException, k.internalException, k.unknown].Nodup

/-- `TAPE_INIT` is a function on `[0, S)`: canonical data within the tape (R5). -/
def Config.tapeInitWf (c : Config) : Bool :=
  Machine.Memory.wf c.tapeInit && Machine.Memory.within c.tapeInit c.tapeSize

/-- The ranges of R5: at least one cell, injective maps, a tape within its size. -/
def Config.wf (c : Config) : Bool :=
  decide (1 ≤ c.tapeSize) && c.opMap.wf && c.statusCode.wf && c.tapeInitWf

/-- An instruction is well formed under a configuration when no other opcode shares its digit
(R5: `OPMAP` is injective; R94: every other field value is legal). -/
def Instr.wf (c : Config) (i : Instr) : Bool :=
  Opcode.all.all fun op => op == i.opcode || c.opMap.digit op != c.opMap.digit i.opcode

end Sys2Proof
end

