-- ==== Sys2Proof/Safety.lean ====
section
/-! DEFINITION. The terms claims are stated in: when an operand resolves and to what, when a search can inspect a word, which Label a word is, and the invariants of a run. None of these is used by the step function. -/

namespace Sys2Proof.Machine

/-- The mode is indirect (30_encoding.md R86). -/
abbrev IsIndirect (s : State) (flag : Digit) : Prop := flag = s.cfg.indMark

/-- Resolution reads no cell outside the tape (R86). -/
abbrev OperandReadable (s : State) (flag : Digit) (operand : Byte) : Prop :=
  IsIndirect s flag → operand.toNat < s.cfg.tapeSize

/-- `vp.value` (R86). -/
def operandValue (s : State) (flag : Digit) (operand : Byte) : Byte :=
  if IsIndirect s flag then s.tape.read operand.toNat else operand

/-- `vp.address` (R86). -/
def operandAddress (s : State) (flag : Digit) (operand : Byte) : Nat :=
  if IsIndirect s flag then operand.toNat else 0

/-- The direct address names a cell of the tape (20_memory.md R51). -/
abbrev CellValid (s : State) (da : Byte) : Prop := da.toNat < s.cfg.tapeSize

/-- A search can inspect the word at an index without a fault: it is there, it decodes, and its
operand resolves (44_control_flow.md R181). -/
def inspectable (s : State) (i : Nat) : Bool :=
  match s.prog[i]? with
  | none => false
  | some w =>
    match decode s.cfg w with
    | .reject _ => false
    | .instr j => decide (OperandReadable s j.flag j.operand)

/-- The word at an index is a Label that carries the value `v` on this tape (R182). -/
def carriesLabel (s : State) (i : Nat) (v : Byte) : Bool :=
  match s.prog[i]? with
  | none => false
  | some w =>
    match decode s.cfg w with
    | .reject _ => false
    | .instr j => j.opcode == .label && operandValue s j.flag j.operand == v

/-- The state an instruction that faults in `s` leaves (60_exceptions.md R246). -/
def faultState (s : State) (k : FaultKind) (inspected : Option Nat) : State :=
  { s with
    run := .haltedFault
    status := k.status s.cfg
    cause := some { kind := k, index := s.pc, inspected := inspected } }

/-- `s` after an instruction that writes one cell and advances. -/
def wroteCell (s : State) (a : Nat) (v : Byte) : State :=
  { s with tape := s.tape.write a v, pc := s.pc + 1 }

/-- What holds of every state of a run from a well-formed construction: the ranges of R5, the
canonical tape within its size (R23), `pc` in `0..N` (R21), no line consumed that was not supplied
(R33), and a cause and a class exactly after a fault (R25, R26, R246). -/
structure Consistent (s : State) : Prop where
  cfg_wf : s.cfg.wf = true
  tape_wf : s.tape.wf = true
  tape_within : s.tape.within s.cfg.tapeSize = true
  pc_le : s.pc ≤ s.progLength
  consumed_le : s.consumed ≤ s.inp.length
  no_cause : s.run ≠ .haltedFault → s.cause = none
  fault_recorded : s.run = .haltedFault → s.pc < s.progLength ∧
    ∃ k j, s.cause = some { kind := k, index := s.pc, inspected := j } ∧ s.status = k.status s.cfg

/-- While there is a word to fetch, every word before it can be inspected without a fault (R189). -/
def ScannedPrefix (s : State) : Prop :=
  s.pc < s.progLength → ∀ i, i < s.pc → inspectable s i = true

/-- A safe run so far: no fault has been taken (R249). -/
abbrev FaultFree (s : State) : Prop := s.run ≠ .haltedFault

end Sys2Proof.Machine
end

