-- ==== Sys2Proof/Certificates/Slice0/Obligations.lean ====
section
/-! DEFINITION. The statements for the provers, each a rule of the spec in the model's terms. -/

open Sys2Proof Sys2Proof.Machine

/-! ### Reset, the cycle and the whole machine -/

/-- 70_reset_and_hazards.md R281 and 10_state.md R35: what construction leaves, for every
configuration, program and input. The value of `status` is the model's choice (log entry 5) and is not
stated. The default configuration of `State.reset` is that of R5, with the model's choice of
`OUTPUT_MODE` (log entry 3), so its tape reads zero (D6, log entry 4). -/
def Obligations.ConstructionLeavesResetValues : Prop :=
  (∀ (c : Config) (p : List ProgWord) (ls : List Line),
    (State.construct c p ls).pc = 0 ∧ (State.construct c p ls).run = .running ∧
    (State.construct c p ls).cause = none ∧ (State.construct c p ls).out = [] ∧
    (State.construct c p ls).consumed = 0 ∧ (State.construct c p ls).inp = ls ∧
    (State.construct c p ls).prog = p ∧ (State.construct c p ls).cfg = c ∧
    (∀ a, (State.construct c p ls).tape.read a = Memory.read c.tapeInit a) ∧
    (State.construct c p ls).exitStatus? = none) ∧
  State.reset = State.construct Config.default [] [] ∧ ∀ a, State.reset.tape.read a = 0

/-- The invariants hold where a run begins: at every well-formed construction, and at reset. -/
def Obligations.ConstructionIsConsistent : Prop :=
  (∀ (c : Config) (p : List ProgWord) (ls : List Line), c.wf = true →
    Consistent (State.construct c p ls) ∧ ScannedPrefix (State.construct c p ls)) ∧
  Consistent State.reset ∧ ScannedPrefix State.reset

/-- Every step keeps: the ranges of the configuration, the canonical tape within its size, `pc` in
`0..N` (10_state.md R21), no line consumed that was not supplied, and a recorded cause with its class
exactly after a fault (R25, R26, R246). -/
def Obligations.StepKeepsConsistent : Prop :=
  ∀ s t : State, Consistent s → step s = .next t → Consistent t

/-- Every step keeps: while there is a word to fetch, every word before it can be inspected without a
fault (44_control_flow.md R189: each was executed, or inspected by a LookAhead). -/
def Obligations.StepKeepsScannedPrefix : Prop :=
  ∀ s t : State, Consistent s → ScannedPrefix s → step s = .next t → ScannedPrefix t

/-- 44_control_flow.md R189, its consequence, with R183 and R185: a LookBack whose own operand resolves
completes, in every state whose passed words can be inspected; its own index is no match, so it goes
back to an index at or below its own, but for one at index 0, which goes to index 1. -/
def Obligations.LookBackCompletesAfterScan : Prop :=
  ∀ (s : State) (w : ProgWord) (da : Byte) (flag : Digit) (operand : Byte),
    s.run = .running → ScannedPrefix s → s.prog[s.pc]? = some w →
    decode s.cfg w = .instr (.lookBack da flag operand) → OperandReadable s flag operand →
    ∃ j, (j < s.pc ∨ s.pc = 0 ∧ j = 0) ∧ step s = .next { s with pc := j + 1 }

/-- 40_engine.md R110 to R115: a step on a word that decodes is `exec` of the instruction it decodes
to; nothing is added around it. -/
def Obligations.StepRunsDecodedInstruction : Prop :=
  ∀ (s : State) (w : ProgWord) (i : Instr), s.run = .running → s.prog[s.pc]? = some w →
    decode s.cfg w = .instr i → step s = exec i s

/-- The same from the encoder: a well-formed instruction's own word at `pc` runs that instruction. -/
def Obligations.StepRunsEncodedInstruction : Prop :=
  ∀ (s : State) (i : Instr), s.run = .running → i.wf s.cfg = true →
    s.prog[s.pc]? = some (.word (encode s.cfg i)) → step s = exec i s

/-- A word placed where the next step fetches is the word that step runs, and no other word of the
program changes. Placing a word is the model's choice (log entries 7 and 8). -/
def Obligations.PlacedWordIsFetched : Prop :=
  ∀ (s : State) (nbits w : Nat) (i : Instr),
    decode s.cfg (.ofTableWord nbits w) = .instr i →
    step (s.withFetchWord nbits w) = exec i (s.withFetchWord nbits w) ∧
    ∀ j, j < s.progLength → j ≠ s.pc → (s.withFetchWord nbits w).prog[j]? = s.prog[j]?

/-- 40_engine.md R113, 60_exceptions.md R241: a fetched word that is malformed or whose digit names no
opcode takes the DecodeFault, before any tape or stream access. -/
def Obligations.UndecodableWordFaults : Prop :=
  ∀ (s : State) (w : ProgWord), s.run = .running → s.prog[s.pc]? = some w →
    (w = .malformed ∨ ∃ b, w = .word b ∧ ∀ op, s.cfg.opMap.digit op ≠ opcodeField b) →
    step s = .next { s with
      run := .haltedFault, status := .rainbowException,
      cause := some { kind := .decodeFault, index := s.pc, inspected := none } }

/-- 40_engine.md R111 (the status Ok is decision D15) and R121: past the last word the run ends,
nothing else changes; so does the empty program at its first step. -/
def Obligations.EndOfProgramHaltsOk : Prop :=
  (∀ s : State, s.run = .running → s.progLength ≤ s.pc →
    step s = .next { s with run := .haltedOk, status := .ok }) ∧
  ∀ (c : Config) (ls : List Line), step (State.construct c [] ls) =
    .next { State.construct c [] ls with run := .haltedOk, status := .ok }

/-- 40_engine.md R118: a halted machine takes no step, so nothing changes any more; the construction of
a fresh machine starts another run. -/
def Obligations.HaltedMachineTakesNoStep : Prop :=
  (∀ s : State, (s.run = .haltedOk ∨ s.run = .haltedFault) → ∀ t, step s ≠ .next t) ∧
  ∀ (c : Config) (p : List ProgWord) (ls : List Line), (State.construct c p ls).run = .running

/-- 10_state.md R36: no step writes the configuration, the program or the input lines. -/
def Obligations.StepNeverWritesConstruction : Prop :=
  ∀ s t : State, step s = .next t → t.cfg = s.cfg ∧ t.prog = s.prog ∧ t.inp = s.inp

/-- 40_engine.md R122, 10_state.md R25: the status and the cause are written only by the step that
ends the run, and no step follows it. -/
def Obligations.StatusIsWrittenOnce : Prop :=
  ∀ s t : State, step s = .next t →
    s.run = .running ∧
    (t.run = .running → t.status = s.status ∧ t.cause = s.cause) ∧
    (t.run = .haltedOk → t.cause = s.cause) ∧
    (t.run ≠ .running → ∀ u, step t ≠ .next u)

/-- 60_exceptions.md R246: what a step that takes a fault leaves: no write to the tape, to `out` or to
`pc`; the class and the cause recorded with the index of the instruction executing; a line read by a
faulting Input stays consumed. -/
def Obligations.FaultEntryWritesOnlyItsRecord : Prop :=
  ∀ s t : State, step s = .next t → t.run = .haltedFault →
    t.tape = s.tape ∧ t.out = s.out ∧ t.pc = s.pc ∧
    (t.consumed = s.consumed ∨ t.consumed = s.consumed + 1 ∧
      ∃ w da flag operand, s.prog[s.pc]? = some w ∧
        decode s.cfg w = .instr (.input da flag operand)) ∧
    ∃ k j, t.cause = some { kind := k, index := s.pc, inspected := j } ∧ t.status = k.status s.cfg

/-- 60_exceptions.md R241, R242, R243: the class of each fault, as the status it leaves. -/
def Obligations.FaultClassesAsSpecified : Prop :=
  ∀ c : Config, FaultKind.decodeFault.status c = .rainbowException ∧
    FaultKind.divideByZero.status c = .rainbowException ∧
    ∀ a, (c.oorClass = .rainbowException → (FaultKind.tapeRange a).status c = .rainbowException) ∧
      (c.oorClass = .internalException → (FaultKind.tapeRange a).status c = .internalException)

/-- 10_state.md R25, R26, R32: nothing a step does depends on `status`, on `cause` or on what is
already in `out`: two machines that differ only there do the same, and append the same bytes. -/
def Obligations.OutputStatusCauseAreNeverRead : Prop :=
  ∀ (s : State) (o : List Byte) (st : ExitStatus) (c : Option CauseRecord),
    (∀ t, step s = .next t →
      ∃ t' e, step { s with out := o, status := st, cause := c } = .next t' ∧
        t.out = s.out ++ e ∧ t'.out = o ++ e ∧
        { t' with out := t.out, status := t.status, cause := t.cause } = t ∧
        (t.run ≠ .running → t'.status = t.status) ∧
        (t.run = .haltedFault → t'.cause = t.cause)) ∧
    (∀ f, step s = .fault f → step { s with out := o, status := st, cause := c } = .fault f)

/-- 20_memory.md R57, 10_state.md R23, R32: only Print appends to `out`, only Input consumes a line,
and only Set, the arithmetic opcodes and Input write the tape; what is in `out` stays there. -/
def Obligations.OnlyTheirOpcodesHaveTheEffect : Prop :=
  ∀ (i : Instr) (s t : State), exec i s = .next t →
    s.out <+: t.out ∧
    (i.opcode ≠ .print → t.out = s.out) ∧
    (i.opcode ≠ .input → t.consumed = s.consumed) ∧
    (i.opcode ∈ [Opcode.exit, .print, .label, .lookBack, .lookAhead] →
      t.tape = s.tape ∧ ∀ a, t.tape.read a = s.tape.read a)

/-- 20_memory.md R51, its derived part: a cell from 256 up is written by Input only, and what it holds
changes nothing any other instruction does. -/
def Obligations.HighCellsBelongToInput : Prop :=
  ∀ (i : Instr) (s : State) (a : Nat) (v : Byte), s.tape.wf = true → i.opcode ≠ .input → 256 ≤ a →
    (∀ t, exec i s = .next t → t.tape.read a = s.tape.read a) ∧
    ∀ t, exec i s = .next t → ∃ t', exec i (s.withTape (s.tape.write a v)) = .next t' ∧
      t'.pc = t.pc ∧ t'.run = t.run ∧ t'.status = t.status ∧ t'.cause = t.cause ∧ t'.out = t.out ∧
      t'.consumed = t.consumed ∧ ∀ b, b ≠ a → t'.tape.read b = t.tape.read b

/-- The canonical form makes equal tapes equal data: two tapes in it that read alike are one tape. -/
def Obligations.CanonicalTapesThatReadAlikeAreEqual : Prop :=
  ∀ m m' : Memory, m.wf = true → m'.wf = true → (∀ a, m.read a = m'.read a) → m = m'

/-! ### Encoding -/

/-- Decoding a well-formed instruction's word gives the instruction back, for every instruction, every
field value and every configuration (30_encoding.md R81 to R84). -/
def Obligations.DecodeOfEncodeIsTheInstruction : Prop :=
  ∀ (c : Config) (i : Instr), i.wf c = true → decode c (.word (encode c i)) = .instr i

/-- The other direction: a word that decodes is the word of the instruction it decodes to, so no bit
of a word is lost; and under an injective `OPMAP` the instruction is well formed. -/
def Obligations.EncodeOfDecodeIsTheWord : Prop :=
  ∀ (c : Config) (w : Packed) (i : Instr), decode c (.word w) = .instr i →
    encode c i = w ∧ (c.opMap.wf = true → i.wf c = true)

/-- 30_encoding.md R85: the fields of six digits: two-digit fields with the left digit more
significant, flag and opcode as single digits, nothing extended, scaled or shifted. -/
def Obligations.FieldsAreTheDigitsOfTheWord : Prop :=
  ∀ (c : Config) (d0 d1 d2 d3 d4 d5 : Digit) (i : Instr),
    decode c (.word (packDigits d0 d1 d2 d3 d4 d5)) = .instr i →
    c.opMap.digit i.opcode = d0 ∧ i.da.toNat = 16 * d1.toNat + d2.toNat ∧ i.flag = d3 ∧
    i.operand.toNat = 16 * d4.toNat + d5.toNat

/-- 30_encoding.md R84, R91, R93: what the decoder rejects: a malformed word, and exactly the words
whose digit names no opcode, which under the default `OPMAP` (D1) are those from 0xC up. -/
def Obligations.DecoderRejectsExactlyIllegalWords : Prop :=
  (∀ c : Config, decode c .malformed = .reject .malformedWord) ∧
  (∀ (c : Config) (w : Packed), (∃ r, decode c (.word w) = .reject r) ↔
    ∀ op, c.opMap.digit op ≠ opcodeField w) ∧
  (∀ w : Packed, (∃ r, decode Config.default (.word w) = .reject r) ↔ 0xC00000 ≤ w.toNat)

/-- Words written out from the field table and the opcode map decode to the instructions they stand
for (30_encoding.md R82, R88; the vectors V-ENC of 95_test_vectors.md). -/
def Obligations.WrittenOutWordsDecode : Prop :=
  decodeTableWord 24 0x000105 = some (.exit 0x00 0x1 0x05) ∧
  decodeTableWord 24 0x112034 = some (.set 0x12 0x0 0x34) ∧
  decodeTableWord 24 0x112134 = some (.set 0x12 0x1 0x34) ∧
  decodeTableWord 24 0x2001FF = some (.print 0x00 0x1 0xFF) ∧
  decodeTableWord 24 0x310120 = some (.input 0x10 0x1 0x20) ∧
  decodeTableWord 24 0x4AB1CD = some (.label 0xAB 0x1 0xCD) ∧
  decodeTableWord 24 0x5000AA = some (.lookBack 0x00 0x0 0xAA) ∧
  decodeTableWord 24 0x600100 = some (.lookAhead 0x00 0x1 0x00) ∧
  decodeTableWord 24 0x7FF1FF = some (.add 0xFF 0x1 0xFF) ∧
  decodeTableWord 24 0x810001 = some (.sub 0x10 0x0 0x01) ∧
  decodeTableWord 24 0x910040 = some (.mul 0x10 0x0 0x40) ∧
  decodeTableWord 24 0xA10010 = some (.div 0x10 0x0 0x10) ∧
  decodeTableWord 24 0xB05106 = some (.mod 0x05 0x1 0x06) ∧
  decodeTableWord 24 0xC00000 = none

/-- 30_encoding.md R86, R89, R90: the fifteen immediate flag digits are interchangeable for every
opcode, and the direct address of an opcode that ignores it does not matter. -/
def Obligations.IgnoredDigitsDoNotMatter : Prop :=
  (∀ (op : Opcode) (da : Byte) (f f' : Digit) (operand : Byte) (s : State),
    f ≠ s.cfg.indMark → f' ≠ s.cfg.indMark →
    exec (.ofFields op da f operand) s = exec (.ofFields op da f' operand) s) ∧
  ∀ (op : Opcode) (da da' : Byte) (f : Digit) (operand : Byte) (s : State),
    op ∈ [Opcode.exit, .label, .lookBack, .lookAhead] →
    exec (.ofFields op da f operand) s = exec (.ofFields op da' f operand) s

/-! ### Faults every instruction can take -/

/-- 40_engine.md R114, 30_encoding.md R87: an indirect operand outside the tape faults every
instruction, before its arm, whatever its opcode. -/
def Obligations.UnreadableOperandFaultsEveryOpcode : Prop :=
  ∀ (i : Instr) (s : State), i.flag = s.cfg.indMark → s.cfg.tapeSize ≤ i.operand.toNat →
    exec i s = .next (faultState s (.tapeRange i.operand.toNat) none)

/-- 20_memory.md R58, 60_exceptions.md R245 (D12), 43_io.md R150 (D20): a direct address outside the
tape faults each instruction that uses it, after resolution and before any zero test, output or line
request. -/
def Obligations.CellOutOfRangeFaults : Prop :=
  ∀ (i : Instr) (s : State), OperandReadable s i.flag i.operand → s.cfg.tapeSize ≤ i.da.toNat →
    i.opcode ∈ [Opcode.set, .print, .input, .add, .sub, .mul, .div, .mod] →
    exec i s = .next (faultState s (.tapeRange i.da.toNat) none)

/-! ### Set and arithmetic -/

/-- 42_set.md R140: Set stores the literal, or the content of the cell its operand names, and
advances. -/
def Obligations.SetStoresTheValue : Prop :=
  ∀ (da : Byte) (flag : Digit) (operand : Byte) (s : State), CellValid s da →
    (flag ≠ s.cfg.indMark →
      exec (.set da flag operand) s = .next (wroteCell s da.toNat operand)) ∧
    (flag = s.cfg.indMark → operand.toNat < s.cfg.tapeSize →
      exec (.set da flag operand) s = .next (wroteCell s da.toNat (s.tape.read operand.toNat)))

/-- 42_set.md R140, its testable property: after Set, the cell, used as an indirect operand, is the
value written. -/
def Obligations.SetIsReadBack : Prop :=
  ∀ (da : Byte) (flag : Digit) (operand : Byte) (s : State), s.tape.wf = true → CellValid s da →
    OperandReadable s flag operand →
    ∃ t, exec (.set da flag operand) s = .next t ∧
      resolve t t.cfg.indMark da =
        .ok { value := operandValue s flag operand, address := da.toNat }

/-- 45_arithmetic.md R211: Add, its wraparound and the lost carry; its opcode digit is the default of
the spec's decision D1. -/
def Obligations.AddWrapsModulo256 : Prop :=
  (∀ (da : Byte) (flag : Digit) (operand : Byte),
    decode Config.default (.word ((0x7 : Digit) ++ da ++ flag ++ operand)) =
      .instr (.add da flag operand)) ∧
  ∀ (da : Byte) (flag : Digit) (operand : Byte) (s : State), CellValid s da →
    OperandReadable s flag operand →
    ∃ r : Byte, exec (.add da flag operand) s = .next (wroteCell s da.toNat r) ∧
      r.toNat = ((s.tape.read da.toNat).toNat + (operandValue s flag operand).toNat) % 256 ∧
      ((s.tape.read da.toNat).toNat + (operandValue s flag operand).toNat ≤ 255 →
        r.toNat = (s.tape.read da.toNat).toNat + (operandValue s flag operand).toNat) ∧
      (255 < (s.tape.read da.toNat).toNat + (operandValue s flag operand).toNat →
        r.toNat + 256 = (s.tape.read da.toNat).toNat + (operandValue s flag operand).toNat)

/-- 45_arithmetic.md R212: Sub, the cell decreased by the resolved value, the borrow lost; its opcode
digit is the default of D1. -/
def Obligations.SubWrapsModulo256 : Prop :=
  (∀ (da : Byte) (flag : Digit) (operand : Byte),
    decode Config.default (.word ((0x8 : Digit) ++ da ++ flag ++ operand)) =
      .instr (.sub da flag operand)) ∧
  ∀ (da : Byte) (flag : Digit) (operand : Byte) (s : State), CellValid s da →
    OperandReadable s flag operand →
    ∃ r : Byte, exec (.sub da flag operand) s = .next (wroteCell s da.toNat r) ∧
      (r.toNat : Int) =
        ((s.tape.read da.toNat).toNat - (operandValue s flag operand).toNat : Int) % 256 ∧
      ((operandValue s flag operand).toNat ≤ (s.tape.read da.toNat).toNat →
        r.toNat = (s.tape.read da.toNat).toNat - (operandValue s flag operand).toNat) ∧
      ((s.tape.read da.toNat).toNat < (operandValue s flag operand).toNat →
        r.toNat + (operandValue s flag operand).toNat = (s.tape.read da.toNat).toNat + 256)

/-- 45_arithmetic.md R213: Mul, the low 8 bits of the product; its opcode digit is the default of D1. -/
def Obligations.MulKeepsTheLowByte : Prop :=
  (∀ (da : Byte) (flag : Digit) (operand : Byte),
    decode Config.default (.word ((0x9 : Digit) ++ da ++ flag ++ operand)) =
      .instr (.mul da flag operand)) ∧
  ∀ (da : Byte) (flag : Digit) (operand : Byte) (s : State), CellValid s da →
    OperandReadable s flag operand →
    ∃ r : Byte, exec (.mul da flag operand) s = .next (wroteCell s da.toNat r) ∧
      r.toNat = ((s.tape.read da.toNat).toNat * (operandValue s flag operand).toNat) % 256

/-- 45_arithmetic.md R214, R215, R216 (floor division is decision D10): for every divisor of at least
1, Div leaves the quotient and Mod the remainder, and the two recompose the cell. -/
def Obligations.DivAndModDecomposeTheCell : Prop :=
  ∀ (da : Byte) (flag : Digit) (operand : Byte) (s : State), CellValid s da →
    OperandReadable s flag operand → operandValue s flag operand ≠ 0 →
    ∃ q r : Byte, exec (.div da flag operand) s = .next (wroteCell s da.toNat q) ∧
      exec (.mod da flag operand) s = .next (wroteCell s da.toNat r) ∧
      (s.tape.read da.toNat).toNat = (operandValue s flag operand).toNat * q.toNat + r.toNat ∧
      r.toNat < (operandValue s flag operand).toNat

/-- 45_arithmetic.md R217, 60_exceptions.md R243: Div and Mod by a resolved zero always fault,
regardless of the dividend, leaving the cell and `pc`, with class RainbowException and the index of
the instruction in the cause (`pc` and the cause are the spec's D13 and R26); in indirect mode exactly
when the cell read holds zero at that time; a literal zero faults in every state. -/
def Obligations.ZeroDivisorFaults : Prop :=
  (∀ (da : Byte) (flag : Digit) (s : State), flag ≠ s.cfg.indMark →
    (∃ k, exec (.div da flag 0) s = .next (faultState s k none)) ∧
    ∃ k, exec (.mod da flag 0) s = .next (faultState s k none)) ∧
  ∀ (i : Instr) (s : State), i.opcode ∈ [Opcode.div, .mod] →
    CellValid s i.da → OperandReadable s i.flag i.operand →
    (operandValue s i.flag i.operand = 0 →
      exec i s = .next (faultState s .divideByZero none) ∧
      (faultState s .divideByZero none).status = .rainbowException ∧
      (faultState s .divideByZero none).run = .haltedFault ∧
      (faultState s .divideByZero none).pc = s.pc ∧
      (faultState s .divideByZero none).cause =
        some { kind := .divideByZero, index := s.pc, inspected := none } ∧
      (faultState s .divideByZero none).tape = s.tape) ∧
    (operandValue s i.flag i.operand ≠ 0 →
      ∃ t, exec i s = .next t ∧ t.run = s.run ∧ t.cause = s.cause) ∧
    (i.flag ≠ s.cfg.indMark → (operandValue s i.flag i.operand = 0 ↔ i.operand = 0)) ∧
    (i.flag = s.cfg.indMark →
      (operandValue s i.flag i.operand = 0 ↔ s.tape.read i.operand.toNat = 0))

/-- 45_arithmetic.md R218: the same cell on both sides: doubling, clearing, squaring, 1 and 0; Div and
Mod of a zero cell by itself fault. -/
def Obligations.SameCellOnBothSides : Prop :=
  ∀ (x : Byte) (s : State), CellValid s x →
    (∃ r : Byte, exec (.add x s.cfg.indMark x) s = .next (wroteCell s x.toNat r) ∧
      r.toNat = (2 * (s.tape.read x.toNat).toNat) % 256) ∧
    exec (.sub x s.cfg.indMark x) s = .next (wroteCell s x.toNat 0) ∧
    (∃ r : Byte, exec (.mul x s.cfg.indMark x) s = .next (wroteCell s x.toNat r) ∧
      r.toNat = ((s.tape.read x.toNat).toNat ^ 2) % 256) ∧
    (s.tape.read x.toNat ≠ 0 →
      exec (.div x s.cfg.indMark x) s = .next (wroteCell s x.toNat 1) ∧
      exec (.mod x s.cfg.indMark x) s = .next (wroteCell s x.toNat 0)) ∧
    (s.tape.read x.toNat = 0 →
      exec (.div x s.cfg.indMark x) s = .next (faultState s .divideByZero none) ∧
      exec (.mod x s.cfg.indMark x) s = .next (faultState s .divideByZero none))

/-- The frame of the six instructions that write `tape[da]` (42_set.md R140, 45_arithmetic.md R210):
every other cell, every stream and all else is as before; `pc` advances; no flag exists (10_state.md
R27, 45_arithmetic.md R219). A faulting form writes no cell at all. -/
def Obligations.CellWriteFrame : Prop :=
  ∀ (i : Instr) (s t : State), i.opcode ∈ [Opcode.set, .add, .sub, .mul, .div, .mod] →
    exec i s = .next t →
    (∀ a, a ≠ i.da.toNat → t.tape.read a = s.tape.read a) ∧
    t.cfg = s.cfg ∧ t.prog = s.prog ∧ t.out = s.out ∧ t.inp = s.inp ∧ t.consumed = s.consumed ∧
    (t.run = s.run ∧ t.status = s.status ∧ t.cause = s.cause ∧ t.pc = s.pc + 1 ∨
      t.run = .haltedFault ∧ t.tape = s.tape ∧ t.pc = s.pc)

/-- 45_arithmetic.md R219: wraparound is the defined result, not an error: on a readable operand and a
cell of the tape Add, Sub and Mul complete, whatever the two bytes are. -/
def Obligations.OverflowIsNoFault : Prop :=
  ∀ (i : Instr) (s : State), i.opcode ∈ [Opcode.add, .sub, .mul] → CellValid s i.da →
    OperandReadable s i.flag i.operand →
    ∃ t, exec i s = .next t ∧ t.run = s.run ∧ t.status = s.status ∧ t.cause = s.cause ∧
      t.pc = s.pc + 1

/-! ### Exit -/

/-- 41_exit.md R130, 40_engine.md R117: Exit ends the run in `HaltedOk` whatever the status, which is
that of the resolved value; nothing else changes, `pc` included. -/
def Obligations.ExitEndsTheRun : Prop :=
  ∀ (da : Byte) (flag : Digit) (operand : Byte) (s : State), OperandReadable s flag operand →
    exec (.exit da flag operand) s = .next { s with
      run := .haltedOk
      status := statusOf s.cfg.statusCode (operandValue s flag operand) }

/-- 41_exit.md R131: the status of a value is the one whose code it is, else Unknown; with the default
codes (D4): 0 Ok, 1 ProgramException, 2 RainbowException, 3 InternalException, the rest Unknown. -/
def Obligations.StatusOfIsTheInverseOfTheCodes : Prop :=
  (∀ (k : StatusCodes) (st : ExitStatus), k.wf = true → statusOf k (statusCodeOf k st) = st) ∧
  (∀ (k : StatusCodes) (v : Byte), (∀ st, statusCodeOf k st ≠ v) → statusOf k v = .unknown) ∧
  (∀ (k : StatusCodes), k.wf = true → statusOf k 0 = .ok) ∧
  statusOf StatusCodes.default 1 = .programException ∧
  statusOf StatusCodes.default 2 = .rainbowException ∧
  statusOf StatusCodes.default 3 = .internalException ∧
  ∀ v : Byte, 4 ≤ v.toNat → statusOf StatusCodes.default v = .unknown

/-! ### Label, LookBack, LookAhead -/

/-- 44_control_flow.md R180: a Label executed does nothing but advance. -/
def Obligations.LabelOnlyAdvances : Prop :=
  ∀ (da : Byte) (flag : Digit) (operand : Byte) (s : State), OperandReadable s flag operand →
    exec (.label da flag operand) s = .next { s with pc := s.pc + 1 }

/-- 44_control_flow.md R181, R182, R189: the match test on the word at an index: a Label whose
resolved value, on the tape as it is, equals the wanted byte; a word that does not decode or resolve
raises its fault, with the inspected index. -/
def Obligations.MatchTestAsSpecified : Prop :=
  ∀ (s : State) (i : Nat) (v : Byte) (w : ProgWord), s.prog[i]? = some w →
    (∀ r, decode s.cfg w = .reject r →
      labelMatches s i v = .raise { kind := .decodeFault, inspected := some i }) ∧
    (∀ j, decode s.cfg w = .instr j → j.flag = s.cfg.indMark → s.cfg.tapeSize ≤ j.operand.toNat →
      labelMatches s i v = .raise { kind := .tapeRange j.operand.toNat, inspected := some i }) ∧
    (∀ j, decode s.cfg w = .instr j → j.flag = s.cfg.indMark → j.operand.toNat < s.cfg.tapeSize →
      labelMatches s i v = .ok (decide (j.opcode = .label ∧ s.tape.read j.operand.toNat = v))) ∧
    (∀ j, decode s.cfg w = .instr j → j.flag ≠ s.cfg.indMark →
      labelMatches s i v = .ok (decide (j.opcode = .label ∧ j.operand = v)))

/-- 44_control_flow.md R183: LookBack goes just past the nearest Label behind it, at index 1 or
later, that carries its value. -/
def Obligations.LookBackGoesPastTheNearestLabel : Prop :=
  ∀ (da : Byte) (flag : Digit) (operand : Byte) (s : State) (k : Nat),
    OperandReadable s flag operand → 1 ≤ k → k ≤ s.pc →
    (∀ j, k ≤ j → j ≤ s.pc → inspectable s j = true) →
    carriesLabel s k (operandValue s flag operand) = true →
    (∀ j, k < j → j ≤ s.pc → carriesLabel s j (operandValue s flag operand) = false) →
    exec (.lookBack da flag operand) s = .next { s with pc := k + 1 }

/-- 44_control_flow.md R184: a LookBack that matches nothing at the indices it inspects is no error:
execution goes on at index 1, or the run ends there, with status Ok (D15), when the program has one
word. -/
def Obligations.FailedLookBackGoesToIndexOne : Prop :=
  ∀ (da : Byte) (flag : Digit) (operand : Byte) (s : State), OperandReadable s flag operand →
    (∀ j, 1 ≤ j → j ≤ s.pc → inspectable s j = true ∧
      carriesLabel s j (operandValue s flag operand) = false) →
    exec (.lookBack da flag operand) s = .next { s with pc := 1 } ∧
    (s.run = .running → s.progLength = 1 →
      step { s with pc := 1 } = .next { s with pc := 1, run := .haltedOk, status := .ok })

/-- 44_control_flow.md R185: LookBack never inspects index 0: whatever word stands there, the outcome
is the same. -/
def Obligations.LookBackNeverInspectsIndexZero : Prop :=
  ∀ (da : Byte) (flag : Digit) (operand : Byte) (s t : State) (w : ProgWord),
    exec (.lookBack da flag operand) s = .next t →
    exec (.lookBack da flag operand) { s with prog := s.prog.set 0 w } =
      .next { t with prog := s.prog.set 0 w }

/-- 44_control_flow.md R186: LookAhead goes just past the nearest Label ahead of it, before the last
index, that carries its value. -/
def Obligations.LookAheadGoesPastTheNearestLabel : Prop :=
  ∀ (da : Byte) (flag : Digit) (operand : Byte) (s : State) (k : Nat),
    OperandReadable s flag operand → s.pc ≤ k → k + 1 < s.progLength →
    (∀ j, s.pc ≤ j → j ≤ k → inspectable s j = true) →
    carriesLabel s k (operandValue s flag operand) = true →
    (∀ j, s.pc ≤ j → j < k → carriesLabel s j (operandValue s flag operand) = false) →
    exec (.lookAhead da flag operand) s = .next { s with pc := k + 1 }

/-- 44_control_flow.md R187: a LookAhead that matches nothing goes to `N`, and the next step ends the
run with status Ok. -/
def Obligations.FailedLookAheadEndsTheRun : Prop :=
  ∀ (da : Byte) (flag : Digit) (operand : Byte) (s : State), OperandReadable s flag operand →
    s.pc < s.progLength →
    (∀ j, s.pc ≤ j → j + 1 < s.progLength → inspectable s j = true ∧
      carriesLabel s j (operandValue s flag operand) = false) →
    exec (.lookAhead da flag operand) s = .next { s with pc := s.progLength } ∧
    (s.run = .running → step { s with pc := s.progLength } =
      .next { s with pc := s.progLength, run := .haltedOk, status := .ok })

/-- 44_control_flow.md R188: LookAhead never inspects the last index: whatever word stands there, the
outcome is the same. -/
def Obligations.LookAheadNeverInspectsTheLastIndex : Prop :=
  ∀ (da : Byte) (flag : Digit) (operand : Byte) (s t : State) (w : ProgWord),
    s.pc < s.progLength → exec (.lookAhead da flag operand) s = .next t →
    exec (.lookAhead da flag operand) { s with prog := s.prog.set (s.progLength - 1) w } =
      .next { t with prog := s.prog.set (s.progLength - 1) w }

/-- 44_control_flow.md R189 (D9): the first word a search meets that does not decode or does not
resolve faults the searching instruction, with `pc` at that instruction and the inspected index in
the cause. -/
def Obligations.SearchFaultsOnTheFirstBadWord : Prop :=
  ∀ (da : Byte) (flag : Digit) (operand : Byte) (s : State) (i : Nat) (w : ProgWord)
    (kind : FaultKind), OperandReadable s flag operand → s.prog[i]? = some w →
    ((∃ r, decode s.cfg w = .reject r ∧ kind = .decodeFault) ∨
      ∃ j, decode s.cfg w = .instr j ∧ ¬ OperandReadable s j.flag j.operand ∧
        kind = .tapeRange j.operand.toNat) →
    (1 ≤ i → i ≤ s.pc →
      (∀ j, i < j → j ≤ s.pc → inspectable s j = true ∧
        carriesLabel s j (operandValue s flag operand) = false) →
      exec (.lookBack da flag operand) s = .next (faultState s kind (some i))) ∧
    (s.pc ≤ i → i + 1 < s.progLength →
      (∀ j, s.pc ≤ j → j < i → inspectable s j = true ∧
        carriesLabel s j (operandValue s flag operand) = false) →
      exec (.lookAhead da flag operand) s = .next (faultState s kind (some i)))

/-- 44_control_flow.md R190: with exactly one Label carrying the value, a search in its direction
lands just after it, index 0 and the last index included; a search in the other direction continues
from its boundary. -/
def Obligations.SingleLabelIsTheTarget : Prop :=
  ∀ (da : Byte) (flag : Digit) (operand : Byte) (s : State) (k : Nat),
    OperandReadable s flag operand → s.pc < s.progLength →
    (∀ j, j < s.progLength → inspectable s j = true) →
    (∀ j, j < s.progLength →
      (carriesLabel s j (operandValue s flag operand) = true ↔ j = k)) →
    (k < s.pc → exec (.lookBack da flag operand) s = .next { s with pc := k + 1 }) ∧
    (s.pc < k → k < s.progLength →
      exec (.lookAhead da flag operand) s = .next { s with pc := k + 1 }) ∧
    (s.pc < k → exec (.lookBack da flag operand) s = .next { s with pc := 1 }) ∧
    (k < s.pc → exec (.lookAhead da flag operand) s = .next { s with pc := s.progLength })

/-- The frame of Label, LookBack and LookAhead (44_control_flow.md R180, R183, R190, R193): they write
`pc` and nothing else, no return address included, unless they fault. -/
def Obligations.ControlFlowFrame : Prop :=
  ∀ (i : Instr) (s t : State), i.opcode ∈ [Opcode.label, .lookBack, .lookAhead] →
    exec i s = .next t →
    (∀ a, t.tape.read a = s.tape.read a) ∧
    (t = { s with pc := t.pc } ∨ ∃ k j, t = faultState s k j)

/-! ### Print -/

/-- 43_io.md R151, R152, R154: Print appends the cells of its range, in ascending order, each rendered
in the output mode, with the delimiter between two cells in Decimal and Hex mode and nothing before,
after or between in ASCII mode; nothing else changes. -/
def Obligations.PrintAppendsTheRenderedRange : Prop :=
  ∀ (da : Byte) (flag : Digit) (operand : Byte) (s : State), CellValid s da →
    OperandReadable s flag operand →
    exec (.print da flag operand) s = .next { s with
      pc := s.pc + 1
      out := s.out ++ List.intercalate (if s.cfg.outputMode = .ascii then [] else s.cfg.delim)
        ((List.range' da.toNat (operandAddress s flag operand + 1 - da.toNat)).map
          fun a => render s.cfg.outputMode (s.tape.read a)) }

/-- 43_io.md R155: a range whose end is below its start prints nothing and is no fault, so an
immediate-mode Print prints cell 0 for `da = 0` and nothing otherwise; one cell has no delimiter. -/
def Obligations.PrintRangeCorners : Prop :=
  ∀ (da : Byte) (flag : Digit) (operand : Byte) (s : State), CellValid s da →
    (flag ≠ s.cfg.indMark → da ≠ 0 →
      exec (.print da flag operand) s = .next { s with pc := s.pc + 1 }) ∧
    (flag ≠ s.cfg.indMark → da = 0 →
      exec (.print da flag operand) s =
        .next { s with pc := s.pc + 1, out := s.out ++ render s.cfg.outputMode (s.tape.read 0) }) ∧
    (flag = s.cfg.indMark → operand.toNat < da.toNat →
      exec (.print da flag operand) s = .next { s with pc := s.pc + 1 }) ∧
    (flag = s.cfg.indMark → operand = da →
      exec (.print da flag operand) s = .next { s with
        pc := s.pc + 1, out := s.out ++ render s.cfg.outputMode (s.tape.read da.toNat) })

/-- 43_io.md R152 (the character codes are its general knowledge): one byte in ASCII mode, the cell
itself; in Decimal mode the digits of the cell, at least one, no leading zero; in Hex mode two
upper-case digits. -/
def Obligations.CellsRenderAsSpecified : Prop :=
  ∀ c : Byte, render .ascii c = [c] ∧
    (render .decimal c ≠ [] ∧ (render .decimal c).all isDigitByte = true ∧
      numVal (render .decimal c) = c.toNat ∧
      ((render .decimal c).head? = some 0x30 → render .decimal c = [0x30])) ∧
    ∃ h l : Byte, render .hex c = [h, l] ∧
      (h.toNat = 0x30 + c.toNat / 16 ∧ c.toNat / 16 < 10 ∨
        h.toNat = 0x41 + c.toNat / 16 - 10 ∧ 10 ≤ c.toNat / 16) ∧
      (l.toNat = 0x30 + c.toNat % 16 ∧ c.toNat % 16 < 10 ∨
        l.toNat = 0x41 + c.toNat % 16 - 10 ∧ 10 ≤ c.toNat % 16)

/-! ### Input -/

/-- 43_io.md R161 (D16): a line is numeric exactly when it has a byte, every byte is a decimal digit,
and the number the digits spell, leading zeros allowed, is less than the tape size. -/
def Obligations.NumericLineTest : Prop :=
  ∀ (c : Config) (l : Line), isNumeric c l = true ↔
    l ≠ [] ∧ (∀ b ∈ l, 0x30 ≤ b.toNat ∧ b.toNat ≤ 0x39) ∧
    Nat.ofDigits 10 (l.reverse.map fun b => b.toNat - 0x30) < c.tapeSize

/-- 43_io.md R162, R165 (D16, D17): a numeric line: the low 8 bits of the number go to the start cell,
then the marker to the sentinel cell, which overwrites it when they are one cell; the line is
consumed; every other cell and all else is as before. -/
def Obligations.InputStoresANumericLine : Prop :=
  ∀ (da : Byte) (flag : Digit) (operand : Byte) (s : State) (l : Line), s.tape.wf = true →
    CellValid s da → OperandReadable s flag operand → s.nextLine = some l →
    isNumeric s.cfg l = true →
    ∃ m : Memory, exec (.input da flag operand) s =
        .next { s with tape := m, pc := s.pc + 1, consumed := s.consumed + 1 } ∧
      m.read (operandAddress s flag operand) = s.cfg.numMarker ∧
      (da.toNat ≠ operandAddress s flag operand → (m.read da.toNat).toNat = numVal l % 256) ∧
      ∀ a, a ≠ da.toNat → a ≠ operandAddress s flag operand → m.read a = s.tape.read a

/-- 43_io.md R163, R165 (D18): a text line that fits: byte `k` goes to the start address plus `k`,
then the low 8 bits of the address after the last byte go to the sentinel cell, over what is there;
the line is consumed; every other cell and all else is as before. -/
def Obligations.InputStoresATextLine : Prop :=
  ∀ (da : Byte) (flag : Digit) (operand : Byte) (s : State) (l : Line), s.tape.wf = true →
    CellValid s da → OperandReadable s flag operand → s.nextLine = some l →
    isNumeric s.cfg l = false → da.toNat + l.length ≤ s.cfg.tapeSize →
    ∃ m : Memory, exec (.input da flag operand) s =
        .next { s with tape := m, pc := s.pc + 1, consumed := s.consumed + 1 } ∧
      (m.read (operandAddress s flag operand)).toNat = (da.toNat + l.length) % 256 ∧
      (∀ k b, l[k]? = some b → da.toNat + k ≠ operandAddress s flag operand →
        m.read (da.toNat + k) = b) ∧
      ∀ a, (a < da.toNat ∨ da.toNat + l.length ≤ a) → a ≠ operandAddress s flag operand →
        m.read a = s.tape.read a

/-- 43_io.md R164 (D13): a text line that does not fit faults with `TapeRange(S)` and writes nothing;
the line is consumed. -/
def Obligations.InputTextTooLongFaults : Prop :=
  ∀ (da : Byte) (flag : Digit) (operand : Byte) (s : State) (l : Line),
    CellValid s da → OperandReadable s flag operand → s.nextLine = some l →
    isNumeric s.cfg l = false → s.cfg.tapeSize < da.toNat + l.length →
    exec (.input da flag operand) s = .next { s with
      run := .haltedFault
      status := (FaultKind.tapeRange s.cfg.tapeSize).status s.cfg
      cause := some { kind := .tapeRange s.cfg.tapeSize, index := s.pc, inspected := none }
      consumed := s.consumed + 1 }

/-- 43_io.md R166 (D21): with no unconsumed line Input has no step, in whatever form it would
otherwise request one; when the host supplies a line, the step is there and consumes it. -/
def Obligations.InputWaitsForALine : Prop :=
  ∀ (da : Byte) (flag : Digit) (operand : Byte) (s : State), CellValid s da →
    OperandReadable s flag operand → s.consumed = s.inp.length →
    exec (.input da flag operand) s = .fault .waitingForLine ∧
    ∀ l, ∃ t, exec (.input da flag operand) (s.supplyLine l) = .next t ∧
      t.consumed = s.consumed + 1 ∧ t.inp = s.inp ++ [l]

/-! ### Malformed words -/

/-- 30_encoding.md R80 (D28), R93: six digits are one packed word, `d0` leftmost; any other number of
digits, or a digit of 16 or more, is a malformed word. So is a placed number of other than 24 bits
(the model's placing, log entries 7 and 8), and a step that fetches it takes the DecodeFault. -/
def Obligations.WrongLengthWordIsMalformed : Prop :=
  (∀ ds : List Nat, ds.length = 6 → (∀ d ∈ ds, d < 16) →
    ∃ w : Packed, ProgWord.ofDigits ds = .word w ∧ w.toNat = Nat.ofDigits 16 ds.reverse) ∧
  (∀ ds : List Nat, (ds.length ≠ 6 ∨ ∃ d ∈ ds, 16 ≤ d) → ProgWord.ofDigits ds = .malformed) ∧
  ∀ (s : State) (nbits w : Nat), nbits ≠ 24 ∨ 2 ^ 24 ≤ w →
    step (s.withFetchWord nbits w) =
      .next (faultState (s.withFetchWord nbits w) .decodeFault none)
end

