-- ==== Sys2Proof/Laws/State.lean ====
section
/-! SUPPORT. One lemma per field of State and named update, so that no proof unfolds a record update. -/

namespace Sys2Proof.Machine

@[simp] theorem State.advance_cfg (s : State) : s.advance.cfg = s.cfg := rfl
@[simp] theorem State.advance_prog (s : State) : s.advance.prog = s.prog := rfl
@[simp] theorem State.advance_pc (s : State) : s.advance.pc = s.pc + 1 := rfl
@[simp] theorem State.advance_tape (s : State) : s.advance.tape = s.tape := rfl
@[simp] theorem State.advance_run (s : State) : s.advance.run = s.run := rfl
@[simp] theorem State.advance_status (s : State) : s.advance.status = s.status := rfl
@[simp] theorem State.advance_cause (s : State) : s.advance.cause = s.cause := rfl
@[simp] theorem State.advance_out (s : State) : s.advance.out = s.out := rfl
@[simp] theorem State.advance_inp (s : State) : s.advance.inp = s.inp := rfl
@[simp] theorem State.advance_consumed (s : State) : s.advance.consumed = s.consumed := rfl

@[simp] theorem State.halt_cfg (s : State) (st : ExitStatus) : (s.halt st).cfg = s.cfg := rfl
@[simp] theorem State.halt_prog (s : State) (st : ExitStatus) : (s.halt st).prog = s.prog := rfl
@[simp] theorem State.halt_pc (s : State) (st : ExitStatus) : (s.halt st).pc = s.pc := rfl
@[simp] theorem State.halt_tape (s : State) (st : ExitStatus) : (s.halt st).tape = s.tape := rfl
@[simp] theorem State.halt_run (s : State) (st : ExitStatus) : (s.halt st).run = .haltedOk := rfl
@[simp] theorem State.halt_status (s : State) (st : ExitStatus) : (s.halt st).status = st := rfl
@[simp] theorem State.halt_cause (s : State) (st : ExitStatus) : (s.halt st).cause = s.cause := rfl
@[simp] theorem State.halt_out (s : State) (st : ExitStatus) : (s.halt st).out = s.out := rfl
@[simp] theorem State.halt_inp (s : State) (st : ExitStatus) : (s.halt st).inp = s.inp := rfl
@[simp] theorem State.halt_consumed (s : State) (st : ExitStatus) : (s.halt st).consumed = s.consumed := rfl

@[simp] theorem State.takeFault_cfg (s : State) (r : Raise) : (s.takeFault r).cfg = s.cfg := rfl
@[simp] theorem State.takeFault_prog (s : State) (r : Raise) : (s.takeFault r).prog = s.prog := rfl
@[simp] theorem State.takeFault_pc (s : State) (r : Raise) : (s.takeFault r).pc = s.pc := rfl
@[simp] theorem State.takeFault_tape (s : State) (r : Raise) : (s.takeFault r).tape = s.tape := rfl
@[simp] theorem State.takeFault_run (s : State) (r : Raise) : (s.takeFault r).run = .haltedFault := rfl
@[simp] theorem State.takeFault_status (s : State) (r : Raise) : (s.takeFault r).status = r.kind.status s.cfg := rfl
@[simp] theorem State.takeFault_cause (s : State) (r : Raise) : (s.takeFault r).cause = some { kind := r.kind, index := s.pc, inspected := r.inspected } := rfl
@[simp] theorem State.takeFault_out (s : State) (r : Raise) : (s.takeFault r).out = s.out := rfl
@[simp] theorem State.takeFault_inp (s : State) (r : Raise) : (s.takeFault r).inp = s.inp := rfl
@[simp] theorem State.takeFault_consumed (s : State) (r : Raise) : (s.takeFault r).consumed = s.consumed := rfl

@[simp] theorem State.emitAll_cfg (s : State) (bs : List Byte) : (s.emitAll bs).cfg = s.cfg := rfl
@[simp] theorem State.emitAll_prog (s : State) (bs : List Byte) : (s.emitAll bs).prog = s.prog := rfl
@[simp] theorem State.emitAll_pc (s : State) (bs : List Byte) : (s.emitAll bs).pc = s.pc := rfl
@[simp] theorem State.emitAll_tape (s : State) (bs : List Byte) : (s.emitAll bs).tape = s.tape := rfl
@[simp] theorem State.emitAll_run (s : State) (bs : List Byte) : (s.emitAll bs).run = s.run := rfl
@[simp] theorem State.emitAll_status (s : State) (bs : List Byte) : (s.emitAll bs).status = s.status := rfl
@[simp] theorem State.emitAll_cause (s : State) (bs : List Byte) : (s.emitAll bs).cause = s.cause := rfl
@[simp] theorem State.emitAll_out (s : State) (bs : List Byte) : (s.emitAll bs).out = s.out ++ bs := rfl
@[simp] theorem State.emitAll_inp (s : State) (bs : List Byte) : (s.emitAll bs).inp = s.inp := rfl
@[simp] theorem State.emitAll_consumed (s : State) (bs : List Byte) : (s.emitAll bs).consumed = s.consumed := rfl

@[simp] theorem State.consumeLine_cfg (s : State) : s.consumeLine.cfg = s.cfg := rfl
@[simp] theorem State.consumeLine_prog (s : State) : s.consumeLine.prog = s.prog := rfl
@[simp] theorem State.consumeLine_pc (s : State) : s.consumeLine.pc = s.pc := rfl
@[simp] theorem State.consumeLine_tape (s : State) : s.consumeLine.tape = s.tape := rfl
@[simp] theorem State.consumeLine_run (s : State) : s.consumeLine.run = s.run := rfl
@[simp] theorem State.consumeLine_status (s : State) : s.consumeLine.status = s.status := rfl
@[simp] theorem State.consumeLine_cause (s : State) : s.consumeLine.cause = s.cause := rfl
@[simp] theorem State.consumeLine_out (s : State) : s.consumeLine.out = s.out := rfl
@[simp] theorem State.consumeLine_inp (s : State) : s.consumeLine.inp = s.inp := rfl
@[simp] theorem State.consumeLine_consumed (s : State) : s.consumeLine.consumed = s.consumed + 1 := rfl

@[simp] theorem State.supplyLine_cfg (s : State) (line : Line) : (s.supplyLine line).cfg = s.cfg := rfl
@[simp] theorem State.supplyLine_prog (s : State) (line : Line) : (s.supplyLine line).prog = s.prog := rfl
@[simp] theorem State.supplyLine_pc (s : State) (line : Line) : (s.supplyLine line).pc = s.pc := rfl
@[simp] theorem State.supplyLine_tape (s : State) (line : Line) : (s.supplyLine line).tape = s.tape := rfl
@[simp] theorem State.supplyLine_run (s : State) (line : Line) : (s.supplyLine line).run = s.run := rfl
@[simp] theorem State.supplyLine_status (s : State) (line : Line) : (s.supplyLine line).status = s.status := rfl
@[simp] theorem State.supplyLine_cause (s : State) (line : Line) : (s.supplyLine line).cause = s.cause := rfl
@[simp] theorem State.supplyLine_out (s : State) (line : Line) : (s.supplyLine line).out = s.out := rfl
@[simp] theorem State.supplyLine_inp (s : State) (line : Line) : (s.supplyLine line).inp = s.inp ++ [line] := rfl
@[simp] theorem State.supplyLine_consumed (s : State) (line : Line) : (s.supplyLine line).consumed = s.consumed := rfl

@[simp] theorem State.jumpTo_cfg (s : State) (i : Nat) : (s.jumpTo i).cfg = s.cfg := rfl
@[simp] theorem State.jumpTo_prog (s : State) (i : Nat) : (s.jumpTo i).prog = s.prog := rfl
@[simp] theorem State.jumpTo_pc (s : State) (i : Nat) : (s.jumpTo i).pc = i := rfl
@[simp] theorem State.jumpTo_tape (s : State) (i : Nat) : (s.jumpTo i).tape = s.tape := rfl
@[simp] theorem State.jumpTo_run (s : State) (i : Nat) : (s.jumpTo i).run = s.run := rfl
@[simp] theorem State.jumpTo_status (s : State) (i : Nat) : (s.jumpTo i).status = s.status := rfl
@[simp] theorem State.jumpTo_cause (s : State) (i : Nat) : (s.jumpTo i).cause = s.cause := rfl
@[simp] theorem State.jumpTo_out (s : State) (i : Nat) : (s.jumpTo i).out = s.out := rfl
@[simp] theorem State.jumpTo_inp (s : State) (i : Nat) : (s.jumpTo i).inp = s.inp := rfl
@[simp] theorem State.jumpTo_consumed (s : State) (i : Nat) : (s.jumpTo i).consumed = s.consumed := rfl

@[simp] theorem State.withTape_cfg (s : State) (m : Memory) : (s.withTape m).cfg = s.cfg := rfl
@[simp] theorem State.withTape_prog (s : State) (m : Memory) : (s.withTape m).prog = s.prog := rfl
@[simp] theorem State.withTape_pc (s : State) (m : Memory) : (s.withTape m).pc = s.pc := rfl
@[simp] theorem State.withTape_tape (s : State) (m : Memory) : (s.withTape m).tape = m := rfl
@[simp] theorem State.withTape_run (s : State) (m : Memory) : (s.withTape m).run = s.run := rfl
@[simp] theorem State.withTape_status (s : State) (m : Memory) : (s.withTape m).status = s.status := rfl
@[simp] theorem State.withTape_cause (s : State) (m : Memory) : (s.withTape m).cause = s.cause := rfl
@[simp] theorem State.withTape_out (s : State) (m : Memory) : (s.withTape m).out = s.out := rfl
@[simp] theorem State.withTape_inp (s : State) (m : Memory) : (s.withTape m).inp = s.inp := rfl
@[simp] theorem State.withTape_consumed (s : State) (m : Memory) : (s.withTape m).consumed = s.consumed := rfl
@[simp] theorem State.withTape_withTape (s : State) (m m' : Memory) : (s.withTape m).withTape m' = s.withTape m' := rfl

@[simp] theorem State.withTape_progLength (s : State) (m : Memory) : (s.withTape m).progLength = s.progLength := rfl
@[simp] theorem State.advance_progLength (s : State) : s.advance.progLength = s.progLength := rfl
@[simp] theorem State.halt_progLength (s : State) (st : ExitStatus) : (s.halt st).progLength = s.progLength := rfl
@[simp] theorem State.takeFault_progLength (s : State) (r : Raise) : (s.takeFault r).progLength = s.progLength := rfl
@[simp] theorem State.emitAll_progLength (s : State) (bs : List Byte) : (s.emitAll bs).progLength = s.progLength := rfl
@[simp] theorem State.consumeLine_progLength (s : State) : s.consumeLine.progLength = s.progLength := rfl
@[simp] theorem State.supplyLine_progLength (s : State) (line : Line) : (s.supplyLine line).progLength = s.progLength := rfl
@[simp] theorem State.jumpTo_progLength (s : State) (i : Nat) : (s.jumpTo i).progLength = s.progLength := rfl

end Sys2Proof.Machine
end

