-- ==== Sys2Proof/Laws/Ops.lean ====
section
/-! SUPPORT. One lemma per shared operation of Machine/Ops.lean and Machine/Operands.lean, saying all it can do. -/

namespace Sys2Proof.Machine

section Sequencing
variable {α β : Type}

@[simp] theorem Res.bind_ok (a : α) (f : α → Res β) : (Res.ok a).bind f = f a := rfl
@[simp] theorem Res.bind_raise (r : Raise) (f : α → Res β) : (Res.raise r : Res α).bind f = .raise r := rfl
@[simp] theorem Res.map_ok (f : α → β) (a : α) : (Res.ok a).map f = .ok (f a) := rfl
@[simp] theorem Res.map_raise (f : α → β) (r : Raise) : (Res.raise r : Res α).map f = .raise r := rfl
@[simp] theorem Res.inspectedAt_ok (i : Nat) (a : α) : (Res.ok a).inspectedAt i = .ok a := rfl
@[simp] theorem Res.inspectedAt_raise (i : Nat) (r : Raise) :
    (Res.raise r : Res α).inspectedAt i = .raise { r with inspected := some i } := rfl

theorem Res.bind_eq_ok {x : Res α} {f : α → Res β} {b : β} :
    x.bind f = .ok b ↔ ∃ a, x = .ok a ∧ f a = .ok b := by
  cases x <;> simp

theorem Res.map_eq_ok {x : Res α} {f : α → β} {b : β} :
    x.map f = .ok b ↔ ∃ a, x = .ok a ∧ f a = b := by
  cases x <;> simp

theorem Res.bind_eq_raise {x : Res α} {f : α → Res β} {r : Raise} :
    x.bind f = .raise r ↔ x = .raise r ∨ ∃ a, x = .ok a ∧ f a = .raise r := by
  cases x <;> simp

theorem Res.map_eq_raise {x : Res α} {f : α → β} {r : Raise} :
    x.map f = .raise r ↔ x = .raise r := by
  cases x <;> simp

end Sequencing

theorem memRead_of_lt {s : State} {a : Nat} (h : a < s.cfg.tapeSize) :
    memRead s a = .ok (s.tape.read a) := if_pos h

theorem memRead_of_ge {s : State} {a : Nat} (h : ¬ a < s.cfg.tapeSize) :
    memRead s a = raiseKind (.tapeRange a) := if_neg h

theorem memWrite_of_lt {s : State} {a : Nat} {v : Byte} (h : a < s.cfg.tapeSize) :
    memWrite s a v = .ok (s.withTape (s.tape.write a v)) := if_pos h

theorem memWrite_of_ge {s : State} {a : Nat} {v : Byte} (h : ¬ a < s.cfg.tapeSize) :
    memWrite s a v = raiseKind (.tapeRange a) := if_neg h

theorem memWrite_eq_ok {s t : State} {a : Nat} {v : Byte} :
    memWrite s a v = .ok t ↔ a < s.cfg.tapeSize ∧ t = s.withTape (s.tape.write a v) := by
  unfold memWrite raiseKind
  split <;> simp [*, eq_comm]

theorem memWrite_raises {s : State} {a : Nat} {v : Byte} {r : Raise} :
    memWrite s a v = .raise r ↔
      s.cfg.tapeSize ≤ a ∧ r = { kind := .tapeRange a, inspected := none } := by
  unfold memWrite raiseKind
  split
  · simp; omega
  · simp [eq_comm]; omega

theorem checkStart_of_lt {s : State} {a : Nat} (h : a < s.cfg.tapeSize) :
    checkStart s a = .ok () := if_pos h

theorem checkStart_of_ge {s : State} {a : Nat} (h : ¬ a < s.cfg.tapeSize) :
    checkStart s a = raiseKind (.tapeRange a) := if_neg h

/-- Fault entry, in the terms of the claims. -/
theorem takeFault_eq_faultState (s : State) (r : Raise) :
    s.takeFault r = faultState s r.kind r.inspected := rfl

@[simp] theorem settle_ok (s t : State) : settle s (.ok t) = .next t := rfl
@[simp] theorem settle_raise (s : State) (r : Raise) : settle s (.raise r) = .next (s.takeFault r) := rfl

@[simp] theorem settle_raiseKind (s : State) (k : FaultKind) :
    settle s (raiseKind k) = .next (faultState s k none) := rfl

/-- The end of an instruction is a next state: the one its result gives, or fault entry. -/
theorem settle_eq_next {s t : State} {x : Res State} :
    settle s x = .next t ↔ x = .ok t ∨ ∃ r, x = .raise r ∧ t = s.takeFault r := by
  cases x <;> simp [settle, eq_comm]

/-- Where an operand resolves, to what (R86). -/
theorem resolve_of_readable {s : State} {flag : Digit} {operand : Byte}
    (h : OperandReadable s flag operand) :
    resolve s flag operand =
      .ok { value := operandValue s flag operand, address := operandAddress s flag operand } := by
  unfold resolve operandValue operandAddress
  split
  · rename_i hf
    rw [memRead_of_lt (h hf)]
    rfl
  · rfl

/-- Where an operand does not resolve, the fault names the operand (R86, R87). -/
theorem resolve_of_unreadable {s : State} {flag : Digit} {operand : Byte}
    (h : ¬ OperandReadable s flag operand) :
    resolve s flag operand = raiseKind (.tapeRange operand.toNat) := by
  obtain ⟨hf, ha⟩ := Classical.not_imp.1 h
  unfold resolve
  rw [if_pos hf, memRead_of_ge ha]
  rfl

theorem runArm_of_readable {s : State} {flag : Digit} {operand : Byte} {arm : ValuePart → Res State}
    (h : OperandReadable s flag operand) :
    runArm s flag operand arm =
      settle s (arm { value := operandValue s flag operand, address := operandAddress s flag operand }) := by
  rw [runArm, resolve_of_readable h, Res.bind_ok]

theorem runArm_of_unreadable {s : State} {flag : Digit} {operand : Byte}
    {arm : ValuePart → Res State} (h : ¬ OperandReadable s flag operand) :
    runArm s flag operand arm = .next (faultState s (.tapeRange operand.toNat) none) := by
  rw [runArm, resolve_of_unreadable h]
  rfl

theorem runArmAdvance_of_readable {s : State} {flag : Digit} {operand : Byte}
    {arm : ValuePart → Res State} (h : OperandReadable s flag operand) :
    runArmAdvance s flag operand arm =
      settle s ((arm { value := operandValue s flag operand,
                       address := operandAddress s flag operand }).map State.advance) :=
  runArm_of_readable h

theorem runArmAdvance_of_unreadable {s : State} {flag : Digit} {operand : Byte}
    {arm : ValuePart → Res State} (h : ¬ OperandReadable s flag operand) :
    runArmAdvance s flag operand arm = .next (faultState s (.tapeRange operand.toNat) none) :=
  runArm_of_unreadable h

/-- All an advancing instruction can do: complete its arm and advance, or take a fault. -/
theorem runArmAdvance_eq_next {s t : State} {flag : Digit} {operand : Byte}
    {arm : ValuePart → Res State} (h : runArmAdvance s flag operand arm = .next t) :
    (∃ vp u, OperandReadable s flag operand ∧ resolve s flag operand = .ok vp ∧
      arm vp = .ok u ∧ t = u.advance) ∨ ∃ r, t = s.takeFault r := by
  by_cases hr : OperandReadable s flag operand
  · rw [runArmAdvance_of_readable hr, settle_eq_next, Res.map_eq_ok] at h
    rcases h with ⟨u, hu, rfl⟩ | ⟨r, -, rfl⟩
    · exact .inl ⟨_, u, hr, resolve_of_readable hr, hu, rfl⟩
    · exact .inr ⟨r, rfl⟩
  · rw [runArmAdvance_of_unreadable hr] at h
    cases h
    exact .inr ⟨⟨.tapeRange operand.toNat, none⟩, rfl⟩

end Sys2Proof.Machine
end

