-- ==== Sys2Proof/Laws/Arithmetic.lean ====
section
/-! SUPPORT. What the arithmetic unit answers, and the one shape of the five arithmetic instructions. -/

namespace Sys2Proof.Machine

@[simp] theorem divisorIsZero_iff (b : Byte) : divisorIsZero b = true ↔ b = 0 := by
  simp [divisorIsZero]

/-- The unit answers a byte, or DivideByZero for a zero divisor of Div or Mod. -/
theorem alu_cases (op : ArithOp) (a b : Byte) :
    (∃ r, alu op a b = .ok r) ∨
      ((op = .div ∨ op = .mod) ∧ b = 0 ∧ alu op a b = raiseKind .divideByZero) := by
  cases op <;> simp only [alu]
  · exact .inl ⟨_, rfl⟩
  · exact .inl ⟨_, rfl⟩
  · exact .inl ⟨_, rfl⟩
  all_goals
    by_cases hb : b = 0
    · exact .inr ⟨by simp, hb, by rw [if_pos ((divisorIsZero_iff b).2 hb)]⟩
    · exact .inl ⟨_, by rw [if_neg (mt (divisorIsZero_iff b).1 hb)]⟩

/-- An arithmetic instruction whose operand and cell are readable: the unit's answer decides. -/
theorem arith_of_valid {op : ArithOp} {da : Byte} {flag : Digit} {operand : Byte} {s : State}
    (hr : OperandReadable s flag operand) (hd : CellValid s da) :
    arith op da flag operand s =
      settle s ((alu op (s.tape.read da.toNat) (operandValue s flag operand)).map
        fun r => wroteCell s da.toNat r) := by
  unfold arith
  rw [runArmAdvance_of_readable hr, memRead_of_lt hd]
  cases h : alu op (s.tape.read da.toNat) (operandValue s flag operand) with
  | raise r => simp [h]
  | ok r => simp [h, memWrite_of_lt hd, wroteCell, State.advance]

/-- The range of the cell is checked before the divisor (R245). -/
theorem arith_of_cell_out_of_range {op : ArithOp} {da : Byte} {flag : Digit} {operand : Byte}
    {s : State} (hr : OperandReadable s flag operand) (hd : ¬ CellValid s da) :
    arith op da flag operand s = .next (faultState s (.tapeRange da.toNat) none) := by
  unfold arith
  rw [runArmAdvance_of_readable hr, memRead_of_ge hd]
  rfl

end Sys2Proof.Machine
end

