-- ==== Sys2Proof/Laws/Control.lean ====
section
/-! SUPPORT. What the match test answers and where a label search can stop. -/

namespace Sys2Proof.Machine

/-- A word a search can inspect: the test answers whether it is a Label that carries the value. -/
theorem labelMatches_of_inspectable {s : State} {i : Nat} {v : Byte} (h : inspectable s i = true) :
    labelMatches s i v = .ok (carriesLabel s i v) := by
  unfold inspectable at h
  unfold labelMatches progRead carriesLabel
  cases hp : s.prog[i]? with
  | none => simp [hp] at h
  | some w =>
    cases hd : decode s.cfg w with
    | reject r => simp [hp, hd] at h
    | instr j =>
      have hr : OperandReadable s j.flag j.operand :=
        of_decide_eq_true (by simpa only [hp, hd] using h)
      simp [inspectWord, hd, resolve_of_readable hr, labelCarries]

/-- A word a search cannot inspect: the search faults there (R189). -/
theorem labelMatches_of_not_inspectable {s : State} {i : Nat} {v : Byte} (hi : i < s.progLength)
    (h : inspectable s i = false) :
    ∃ k, labelMatches s i v = .raise { kind := k, inspected := some i } := by
  unfold inspectable at h
  unfold labelMatches progRead
  have hp : s.prog[i]? = some s.prog[i] := List.getElem?_eq_getElem hi
  rw [hp] at h ⊢
  cases hd : decode s.cfg s.prog[i] with
  | reject r => exact ⟨.decodeFault, by simp [inspectWord, hd, raiseKind]⟩
  | instr j =>
    have hr : ¬ OperandReadable s j.flag j.operand :=
      of_decide_eq_false (by simpa only [hd] using h)
    exact ⟨.tapeRange j.operand.toNat,
      by simp [inspectWord, hd, resolve_of_unreadable hr, raiseKind]⟩

/-- A backward search that stops, stops at its start or below. -/
theorem searchBack_le {s : State} {v : Byte} {i r : Nat} (h : searchBack s v i = .ok r) : r ≤ i := by
  induction i with
  | zero =>
    simp only [searchBack, Res.ok.injEq] at h
    omega
  | succ i ih =>
    rw [searchBack, Res.bind_eq_ok] at h
    obtain ⟨m, -, h⟩ := h
    cases m with
    | true =>
      simp only [if_true, Res.ok.injEq] at h
      omega
    | false =>
      have := ih (by simpa using h)
      omega

/-- A backward search from a word that is no match stops below it, or at index 0 where it began
(R183, R185). -/
theorem searchBack_lt_of_not_carries {s : State} {v : Byte} {i r : Nat}
    (h : searchBack s v i = .ok r) (hi : inspectable s i = true) (hc : carriesLabel s i v = false) :
    r < i ∨ i = 0 ∧ r = 0 := by
  cases i with
  | zero => exact .inr ⟨rfl, Nat.le_zero.1 (searchBack_le h)⟩
  | succ i =>
    rw [searchBack, labelMatches_of_inspectable hi, hc] at h
    exact .inl (Nat.lt_succ_of_le (searchBack_le h))

/-- A forward search that stops, stops between its start and the last index, every word before the
stop having been inspected, unless it ran to the last index. -/
theorem searchAheadFrom_stops {s : State} {v : Byte} {n i r : Nat}
    (h : searchAheadFrom s v i n = .ok r) (hn : i + n = s.progLength - 1) :
    i ≤ r ∧ r ≤ s.progLength - 1 := by
  induction n generalizing i with
  | zero =>
    simp only [searchAheadFrom, Res.ok.injEq] at h
    omega
  | succ n ih =>
    rw [searchAheadFrom, Res.bind_eq_ok] at h
    obtain ⟨m, -, h⟩ := h
    cases m with
    | true =>
      simp only [if_true, Res.ok.injEq] at h
      omega
    | false =>
      have := ih (i := i + 1) (by simpa using h) (by omega)
      omega

/-- A forward search from a word of the program ends at a word of the program. -/
theorem searchAhead_lt {s : State} {v : Byte} {p r : Nat} (h : searchAhead s v p = .ok r)
    (hp : p < s.progLength) : p ≤ r ∧ r < s.progLength := by
  have := searchAheadFrom_stops h (by omega)
  omega

end Sys2Proof.Machine
end

