-- ==== Sys2Proof/Laws/Decode.lean ====
section
/-! SUPPORT. The fields of a word, and what OPMAP and its inverse do. -/

namespace Sys2Proof

@[simp] theorem Instr.opcode_ofFields (op : Opcode) (da : Byte) (flag : Digit) (operand : Byte) :
    (Instr.ofFields op da flag operand).opcode = op := by cases op <;> rfl

@[simp] theorem Instr.da_ofFields (op : Opcode) (da : Byte) (flag : Digit) (operand : Byte) :
    (Instr.ofFields op da flag operand).da = da := by cases op <;> rfl

@[simp] theorem Instr.flag_ofFields (op : Opcode) (da : Byte) (flag : Digit) (operand : Byte) :
    (Instr.ofFields op da flag operand).flag = flag := by cases op <;> rfl

@[simp] theorem Instr.operand_ofFields (op : Opcode) (da : Byte) (flag : Digit) (operand : Byte) :
    (Instr.ofFields op da flag operand).operand = operand := by cases op <;> rfl

/-- An instruction is its four fields. -/
theorem Instr.ofFields_self (i : Instr) : Instr.ofFields i.opcode i.da i.flag i.operand = i := by
  cases i <;> rfl

/-- A number of 24 bits is its packed word. -/
theorem ProgWord.ofTableWord_of_lt {w : Nat} (h : w < 2 ^ 24) :
    ProgWord.ofTableWord 24 w = .word (.ofNat 24 w) := if_pos ⟨rfl, h⟩

/-- Any other number is a malformed word (R80). -/
theorem ProgWord.ofTableWord_of_wrong_length {nbits w : Nat} (h : nbits ≠ 24 ∨ 2 ^ 24 ≤ w) :
    ProgWord.ofTableWord nbits w = .malformed := if_neg (by omega)

theorem Opcode.mem_all (op : Opcode) : op ∈ Opcode.all := by cases op <;> decide

/-- The four fields of a word laid out as R81 says. -/
theorem fields_of_layout (d : Digit) (da : Byte) (flag : Digit) (operand : Byte) :
    let w : Packed := d ++ da ++ flag ++ operand
    opcodeField w = d ∧ daField w = da ∧ flagField w = flag ∧ operandField w = operand := by
  refine ⟨?_, ?_, ?_, ?_⟩
  · simp only [opcodeField]
    ext i hi
    simp
    grind
  · simp only [daField]
    ext i hi
    simp
    grind
  · simp only [flagField]
    ext i hi
    simp
    grind
  · simp only [operandField]
    ext i hi
    simp
    grind

/-- The digit of an opcode selects it, when no other opcode shares the digit. -/
theorem OpMap.opcode?_digit (m : OpMap) (op : Opcode)
    (h : ∀ op', op' ≠ op → m.digit op' ≠ m.digit op) : m.opcode? (m.digit op) = some op := by
  unfold OpMap.opcode?
  rw [List.find?_eq_some_iff_append]
  obtain ⟨l, r, hl⟩ := List.append_of_mem (Opcode.mem_all op)
  have hnot : op ∉ l := by
    have hnd : Opcode.all.Nodup := by decide
    rw [hl] at hnd
    have := (List.nodup_append.1 hnd).2.2
    exact fun hm => this op hm op (by simp) rfl
  exact ⟨by simp, l, r, hl, fun a ha => by
    simpa using h a fun he => hnot (he ▸ ha)⟩

/-- The digit of an opcode the inverse answers is the digit it was asked. -/
theorem OpMap.digit_of_opcode? {m : OpMap} {d : Digit} {op : Opcode} (h : m.opcode? d = some op) :
    m.digit op = d := by
  simpa using List.find?_some h

/-- A digit the inverse does not know is no opcode's. -/
theorem OpMap.opcode?_eq_none {m : OpMap} {d : Digit} :
    m.opcode? d = none ↔ ∀ op, m.digit op ≠ d := by
  unfold OpMap.opcode?
  rw [List.find?_eq_none]
  exact ⟨fun h op => by simpa using h op (Opcode.mem_all op), fun h op _ => by simpa using h op⟩

theorem Instr.wf_iff (c : Config) (i : Instr) :
    i.wf c = true ↔ ∀ op, op ≠ i.opcode → c.opMap.digit op ≠ c.opMap.digit i.opcode := by
  unfold Instr.wf
  rw [List.all_eq_true]
  constructor
  · intro h op hne
    have := h op (Opcode.mem_all op)
    simpa [hne] using this
  · intro h op _
    by_cases hne : op = i.opcode
    · simp [hne]
    · simpa [hne] using h op hne

/-- All the decoder can answer about a packed word. -/
theorem decode_word (c : Config) (w : Packed) :
    (∃ op, c.opMap.opcode? (opcodeField w) = some op ∧
      decode c (.word w) =
        .instr (Instr.ofFields op (daField w) (flagField w) (operandField w))) ∨
    ((∀ op, c.opMap.digit op ≠ opcodeField w) ∧
      decode c (.word w) = .reject (.illegalOpcode (opcodeField w))) := by
  cases h : c.opMap.opcode? (opcodeField w) with
  | none => exact .inr ⟨OpMap.opcode?_eq_none.1 h, by simp [decode, h]⟩
  | some op => exact .inl ⟨op, rfl, by simp [decode, h]⟩

end Sys2Proof
end

