-- ==== Sys2Proof/Laws/Io.lean ====
section
/-! SUPPORT. What Print reads and what Input writes. -/

namespace Sys2Proof.Machine

/-- The cells of a range inside the tape, in ascending order. -/
theorem readCells_of_within (s : State) (a n : Nat) (h : a + n ≤ s.cfg.tapeSize) :
    readCells s a n = .ok ((List.range' a n).map s.tape.read) := by
  induction n generalizing a with
  | zero => rfl
  | succ n ih =>
    rw [readCells, memRead_of_lt (by omega), Res.bind_ok, ih (a + 1) (by omega)]
    rfl

/-- Print's arm on a range that ends inside the tape. -/
theorem printRange_of_valid (s : State) (first last : Nat) (hf : first < s.cfg.tapeSize)
    (hl : last < s.cfg.tapeSize) :
    printRange s first last =
      .ok (s.emitAll (renderCells s.cfg ((List.range' first (last + 1 - first)).map s.tape.read))) := by
  unfold printRange
  rw [checkStart_of_lt hf, Res.bind_ok, readCells_of_within s _ _ (by omega)]
  rfl

/-- The address a Print or Input uses is inside a tape that has the start cell (R150). -/
theorem operandAddress_lt {s : State} {flag : Digit} {operand : Byte}
    (hr : OperandReadable s flag operand) (hs : 0 < s.cfg.tapeSize) :
    operandAddress s flag operand < s.cfg.tapeSize := by
  unfold operandAddress
  split
  · exact hr ‹_›
  · exact hs

/-- The cells a line writes: the tape after byte `k` of it has gone to `a + k`, in order. -/
def lineTape (m : Memory) (a : Nat) : Line → Memory
  | [] => m
  | b :: bs => lineTape (m.write a b) (a + 1) bs

theorem writeLine_of_fits (s : State) (a : Nat) (line : Line)
    (h : a + line.length ≤ s.cfg.tapeSize) :
    writeLine s a line = .ok (s.withTape (lineTape s.tape a line)) := by
  induction line generalizing s a with
  | nil => rfl
  | cons b bs ih =>
    simp only [List.length_cons] at h
    have ha : a < s.cfg.tapeSize := by omega
    rw [writeLine, memWrite_of_lt ha, Res.bind_ok,
      ih _ (a + 1) (by simp only [State.withTape_cfg]; omega)]
    rfl

theorem lineTape_wf (m : Memory) (a : Nat) (line : Line) (h : m.wf = true) :
    (lineTape m a line).wf = true := by
  induction line generalizing m a with
  | nil => exact h
  | cons b bs ih => exact ih _ _ (Memory.write_wf m a b h)

theorem lineTape_within (m : Memory) (a n : Nat) (line : Line) (h : m.within n = true)
    (hn : a + line.length ≤ n) : (lineTape m a line).within n = true := by
  induction line generalizing m a with
  | nil => exact h
  | cons b bs ih =>
    simp only [List.length_cons] at hn
    exact ih _ _ (Memory.write_within m a n b h (by omega)) (by omega)

/-- Outside the run of a line its cells are left alone. -/
theorem lineTape_read_outside (m : Memory) (a : Nat) (line : Line) (a' : Nat)
    (h : a' < a ∨ a + line.length ≤ a') : (lineTape m a line).read a' = m.read a' := by
  induction line generalizing m a with
  | nil => rfl
  | cons b bs ih =>
    simp only [List.length_cons] at h
    rw [lineTape, ih _ _ (by omega), Memory.read_write_other _ _ _ _ (by omega)]

/-- Inside it, cell `a + k` holds byte `k`. -/
theorem lineTape_read_inside (m : Memory) (a : Nat) (line : Line) (k : Nat) (c : Byte)
    (hw : m.wf = true) (hk : (line)[k]? = some c) : (lineTape m a line).read (a + k) = c := by
  induction line generalizing m a k with
  | nil => simp at hk
  | cons b bs ih =>
    rw [lineTape]
    cases k with
    | zero =>
      rw [lineTape_read_outside _ _ _ _ (by omega)]
      have hb : b = c := by simpa using hk
      simpa [hb] using Memory.read_write_self m a b hw
    | succ k =>
      have := ih (m.write a b) (a + 1) k (Memory.write_wf m a b hw) (by simpa using hk)
      rw [show a + (k + 1) = a + 1 + k by omega, this]

/-- Numeric mode, both cells inside the tape (R162, R165). -/
theorem inputNumber_of_valid (s : State) (start sent : Nat) (line : Line)
    (hs : start < s.cfg.tapeSize) (ht : sent < s.cfg.tapeSize) :
    inputNumber s start sent line =
      .ok (s.withTape ((s.tape.write start (.ofNat 8 (numVal line))).write sent s.cfg.numMarker)) := by
  unfold inputNumber
  rw [memWrite_of_lt hs, Res.bind_ok, memWrite_of_lt (by exact ht)]
  rfl

/-- Text mode, the line fits (R163, R165). -/
theorem inputText_of_fits (s : State) (start sent : Nat) (line : Line)
    (hs : start + line.length ≤ s.cfg.tapeSize) (ht : sent < s.cfg.tapeSize) :
    inputText s start sent line =
      .ok (s.withTape ((lineTape s.tape start line).write sent (.ofNat 8 (start + line.length)))) := by
  unfold inputText
  rw [if_neg (by omega), writeLine_of_fits s start line hs, Res.bind_ok, memWrite_of_lt (by exact ht)]
  rfl

/-- Text mode, the line does not fit (R164). -/
theorem inputText_of_too_long (s : State) (start sent : Nat) (line : Line)
    (hs : s.cfg.tapeSize < start + line.length) :
    inputText s start sent line = raiseKind (.tapeRange s.cfg.tapeSize) := if_pos hs

theorem inputLine_of_numeric {s : State} {line : Line} (start sent : Nat)
    (h : isNumeric s.cfg line = true) :
    inputLine s start sent line = inputNumber s start sent line := if_pos h

theorem inputLine_of_text {s : State} {line : Line} (start sent : Nat)
    (h : isNumeric s.cfg line = false) :
    inputLine s start sent line = inputText s start sent line := if_neg (by simp [h])

/-- All that Input's work on a line can do: the tape changes within its form, or `TapeRange(S)`. -/
theorem inputLine_cases (s : State) (start sent : Nat) (line : Line)
    (hs : start < s.cfg.tapeSize) (ht : sent < s.cfg.tapeSize) :
    (∃ m : Memory, inputLine s start sent line = .ok (s.withTape m) ∧
      (s.tape.wf = true → m.wf = true) ∧
      (s.tape.within s.cfg.tapeSize = true → m.within s.cfg.tapeSize = true)) ∨
    inputLine s start sent line = raiseKind (.tapeRange s.cfg.tapeSize) := by
  unfold inputLine
  split
  · rw [inputNumber_of_valid s start sent line hs ht]
    exact .inl ⟨_, rfl, fun h => Memory.write_wf _ _ _ (Memory.write_wf _ _ _ h),
      fun h => Memory.write_within _ _ _ _ (Memory.write_within _ _ _ _ h hs) ht⟩
  · by_cases hfit : start + line.length ≤ s.cfg.tapeSize
    · rw [inputText_of_fits s start sent line hfit ht]
      exact .inl ⟨_, rfl, fun h => Memory.write_wf _ _ _ (lineTape_wf _ _ _ h),
        fun h => Memory.write_within _ _ _ _ (lineTape_within _ _ _ _ h hfit) ht⟩
    · exact .inr (inputText_of_too_long s start sent line (by omega))

/-- Input whose operand resolves and whose start is a cell: the line decides. -/
theorem execInput_of_valid {da : Byte} {flag : Digit} {operand : Byte} {s : State}
    (hr : OperandReadable s flag operand) (hd : CellValid s da) :
    execInput da flag operand s = inputFrom s da.toNat (operandAddress s flag operand) := by
  unfold execInput
  rw [resolve_of_readable hr, Res.bind_ok, checkStart_of_lt hd]
  rfl

/-- Input that faults before it requests a line (R150, R160, R245). -/
theorem execInput_of_invalid {da : Byte} {flag : Digit} {operand : Byte} {s : State}
    (h : ¬ (OperandReadable s flag operand ∧ CellValid s da)) :
    ∃ a, execInput da flag operand s = .next (faultState s (.tapeRange a) none) := by
  by_cases hr : OperandReadable s flag operand
  · have hd : ¬ CellValid s da := fun hd => h ⟨hr, hd⟩
    refine ⟨da.toNat, ?_⟩
    unfold execInput
    rw [resolve_of_readable hr, Res.bind_ok, checkStart_of_ge hd]
    rfl
  · refine ⟨operand.toNat, ?_⟩
    unfold execInput
    rw [resolve_of_unreadable hr]
    rfl

end Sys2Proof.Machine
end

