-- ==== Sys2Proof/Laws/PerInstr.lean ====
section
/-! SUPPORT. Facts about every instruction as data, one lemma per constructor. -/

/-- The word of an instruction holds its opcode digit and its three other fields where the field
table puts them (30_encoding.md R82). -/
def Sys2Proof.Laws.EncodedFields.Statement (i : Sys2Proof.Instr) : Prop :=
  ∀ c : Sys2Proof.Config,
    Sys2Proof.opcodeField (Sys2Proof.encode c i) = c.opMap.digit i.opcode ∧
    Sys2Proof.daField (Sys2Proof.encode c i) = i.da ∧
    Sys2Proof.flagField (Sys2Proof.encode c i) = i.flag ∧
    Sys2Proof.operandField (Sys2Proof.encode c i) = i.operand

theorem Sys2Proof.Laws.EncodedFields.exit (da : Sys2Proof.Byte) (flag : Sys2Proof.Digit)
    (operand : Sys2Proof.Byte) : Sys2Proof.Laws.EncodedFields.Statement (.exit da flag operand) :=
  fun _ => Sys2Proof.fields_of_layout _ _ _ _

theorem Sys2Proof.Laws.EncodedFields.set (da : Sys2Proof.Byte) (flag : Sys2Proof.Digit)
    (operand : Sys2Proof.Byte) : Sys2Proof.Laws.EncodedFields.Statement (.set da flag operand) :=
  fun _ => Sys2Proof.fields_of_layout _ _ _ _

theorem Sys2Proof.Laws.EncodedFields.print (da : Sys2Proof.Byte) (flag : Sys2Proof.Digit)
    (operand : Sys2Proof.Byte) : Sys2Proof.Laws.EncodedFields.Statement (.print da flag operand) :=
  fun _ => Sys2Proof.fields_of_layout _ _ _ _

theorem Sys2Proof.Laws.EncodedFields.input (da : Sys2Proof.Byte) (flag : Sys2Proof.Digit)
    (operand : Sys2Proof.Byte) : Sys2Proof.Laws.EncodedFields.Statement (.input da flag operand) :=
  fun _ => Sys2Proof.fields_of_layout _ _ _ _

theorem Sys2Proof.Laws.EncodedFields.label (da : Sys2Proof.Byte) (flag : Sys2Proof.Digit)
    (operand : Sys2Proof.Byte) : Sys2Proof.Laws.EncodedFields.Statement (.label da flag operand) :=
  fun _ => Sys2Proof.fields_of_layout _ _ _ _

theorem Sys2Proof.Laws.EncodedFields.lookBack (da : Sys2Proof.Byte) (flag : Sys2Proof.Digit)
    (operand : Sys2Proof.Byte) : Sys2Proof.Laws.EncodedFields.Statement (.lookBack da flag operand) :=
  fun _ => Sys2Proof.fields_of_layout _ _ _ _

theorem Sys2Proof.Laws.EncodedFields.lookAhead (da : Sys2Proof.Byte) (flag : Sys2Proof.Digit)
    (operand : Sys2Proof.Byte) : Sys2Proof.Laws.EncodedFields.Statement (.lookAhead da flag operand) :=
  fun _ => Sys2Proof.fields_of_layout _ _ _ _

theorem Sys2Proof.Laws.EncodedFields.add (da : Sys2Proof.Byte) (flag : Sys2Proof.Digit)
    (operand : Sys2Proof.Byte) : Sys2Proof.Laws.EncodedFields.Statement (.add da flag operand) :=
  fun _ => Sys2Proof.fields_of_layout _ _ _ _

theorem Sys2Proof.Laws.EncodedFields.sub (da : Sys2Proof.Byte) (flag : Sys2Proof.Digit)
    (operand : Sys2Proof.Byte) : Sys2Proof.Laws.EncodedFields.Statement (.sub da flag operand) :=
  fun _ => Sys2Proof.fields_of_layout _ _ _ _

theorem Sys2Proof.Laws.EncodedFields.mul (da : Sys2Proof.Byte) (flag : Sys2Proof.Digit)
    (operand : Sys2Proof.Byte) : Sys2Proof.Laws.EncodedFields.Statement (.mul da flag operand) :=
  fun _ => Sys2Proof.fields_of_layout _ _ _ _

theorem Sys2Proof.Laws.EncodedFields.div (da : Sys2Proof.Byte) (flag : Sys2Proof.Digit)
    (operand : Sys2Proof.Byte) : Sys2Proof.Laws.EncodedFields.Statement (.div da flag operand) :=
  fun _ => Sys2Proof.fields_of_layout _ _ _ _

theorem Sys2Proof.Laws.EncodedFields.mod (da : Sys2Proof.Byte) (flag : Sys2Proof.Digit)
    (operand : Sys2Proof.Byte) : Sys2Proof.Laws.EncodedFields.Statement (.mod da flag operand) :=
  fun _ => Sys2Proof.fields_of_layout _ _ _ _
end

