-- ==== Sys2Proof/Laws/Step.lean ====
section
/-! SUPPORT. Once and for all, what an instruction and what a step can do when they answer a next state. -/

namespace Sys2Proof.Machine

/-- The opcodes that write the one cell `tape[da]`. -/
def writesCell : Opcode → Bool
  | .set => true
  | .add => true
  | .sub => true
  | .mul => true
  | .div => true
  | .mod => true
  | .exit => false
  | .print => false
  | .input => false
  | .label => false
  | .lookBack => false
  | .lookAhead => false

/-- Everything an instruction can do in `s` when `exec` answers a next state. -/
inductive ExecNext (i : Instr) (s : State) : State → Prop where
  | fault (r : Raise) : ExecNext i s (s.takeFault r)
  | exit (hop : i.opcode = .exit) (hr : OperandReadable s i.flag i.operand) :
      ExecNext i s (s.halt (statusOf s.cfg.statusCode (operandValue s i.flag i.operand)))
  | write (hop : writesCell i.opcode = true) (hr : OperandReadable s i.flag i.operand)
      (hd : CellValid s i.da) (v : Byte) : ExecNext i s (wroteCell s i.da.toNat v)
  | print (hop : i.opcode = .print) (hr : OperandReadable s i.flag i.operand) (bs : List Byte) :
      ExecNext i s (s.emitAll bs).advance
  | label (hop : i.opcode = .label) (hr : OperandReadable s i.flag i.operand) :
      ExecNext i s s.advance
  | lookBack (hop : i.opcode = .lookBack) (hr : OperandReadable s i.flag i.operand) (j : Nat)
      (hj : searchBack s (operandValue s i.flag i.operand) s.pc = .ok j) :
      ExecNext i s (s.jumpTo j).advance
  | lookAhead (hop : i.opcode = .lookAhead) (hr : OperandReadable s i.flag i.operand) (j : Nat)
      (hj : searchAhead s (operandValue s i.flag i.operand) s.pc = .ok j) :
      ExecNext i s (s.jumpTo j).advance
  | inputDone (hop : i.opcode = .input) (hr : OperandReadable s i.flag i.operand) (l : Line)
      (hl : s.nextLine = some l) (m : Memory) (hw : s.tape.wf = true → m.wf = true)
      (hn : s.tape.within s.cfg.tapeSize = true → m.within s.cfg.tapeSize = true) :
      ExecNext i s (s.consumeLine.withTape m).advance
  | inputFault (hop : i.opcode = .input) (hr : OperandReadable s i.flag i.operand) (l : Line)
      (hl : s.nextLine = some l) (r : Raise) : ExecNext i s (s.consumeLine.takeFault r)

theorem arith_next {op : ArithOp} {i : Instr} {s t : State} (hop : writesCell i.opcode = true)
    (h : arith op i.da i.flag i.operand s = .next t) : ExecNext i s t := by
  by_cases hr : OperandReadable s i.flag i.operand
  · by_cases hd : CellValid s i.da
    · rw [arith_of_valid hr hd, settle_eq_next, Res.map_eq_ok] at h
      rcases h with ⟨v, -, rfl⟩ | ⟨r, -, rfl⟩
      · exact .write hop hr hd v
      · exact .fault r
    · rw [arith_of_cell_out_of_range hr hd] at h
      cases h
      exact .fault ⟨.tapeRange i.da.toNat, none⟩
  · rw [arith, runArmAdvance_of_unreadable hr] at h
    cases h
    exact .fault ⟨.tapeRange i.operand.toNat, none⟩

theorem execInput_next {da : Byte} {flag : Digit} {operand : Byte} {s t : State}
    (h : execInput da flag operand s = .next t) : ExecNext (.input da flag operand) s t := by
  by_cases hv : OperandReadable s flag operand ∧ CellValid s da
  · obtain ⟨hr, hd⟩ := hv
    rw [execInput_of_valid hr hd, inputFrom] at h
    cases hl : s.nextLine with
    | none => simp [hl] at h
    | some l =>
      have ht := operandAddress_lt hr (Nat.zero_lt_of_lt hd)
      rcases inputLine_cases s.consumeLine da.toNat (operandAddress s flag operand) l hd ht with
        ⟨m, hm, hw, hn⟩ | hm
      · simp only [hl, hm, Res.map_ok, settle_ok, Host.Outcome.next.injEq] at h
        subst h
        exact .inputDone rfl hr l hl m hw hn
      · simp only [hl, hm] at h
        cases h
        exact .inputFault rfl hr l hl ⟨.tapeRange s.cfg.tapeSize, none⟩
  · obtain ⟨a, ha⟩ := execInput_of_invalid hv
    rw [ha] at h
    cases h
    exact .fault ⟨.tapeRange a, none⟩

/-- The inversion of `exec`. -/
theorem exec_next {i : Instr} {s t : State} (h : exec i s = .next t) : ExecNext i s t := by
  cases i with
  | exit da flag operand =>
    rw [exec, execExit] at h
    by_cases hr : OperandReadable s flag operand
    · rw [runArm_of_readable hr, settle_ok] at h
      cases h
      exact .exit rfl hr
    · rw [runArm_of_unreadable hr] at h
      cases h
      exact .fault ⟨.tapeRange operand.toNat, none⟩
  | set da flag operand =>
    rcases runArmAdvance_eq_next h with ⟨vp, u, hr, -, hu, rfl⟩ | ⟨r, rfl⟩
    · obtain ⟨hd, rfl⟩ := memWrite_eq_ok.1 hu
      exact ExecNext.write (i := .set da flag operand) rfl hr hd vp.value
    · exact .fault r
  | print da flag operand =>
    rcases runArmAdvance_eq_next h with ⟨vp, u, hr, -, hu, rfl⟩ | ⟨r, rfl⟩
    · simp only [printRange, Res.bind_eq_ok, Res.map_eq_ok] at hu
      obtain ⟨-, -, bs, -, rfl⟩ := hu
      exact .print rfl hr _
    · exact .fault r
  | input da flag operand => exact execInput_next h
  | label da flag operand =>
    rcases runArmAdvance_eq_next h with ⟨vp, u, hr, -, hu, rfl⟩ | ⟨r, rfl⟩
    · cases hu
      exact .label rfl hr
    · exact .fault r
  | lookBack da flag operand =>
    rcases runArmAdvance_eq_next h with ⟨vp, u, hr, hv, hu, rfl⟩ | ⟨r, rfl⟩
    · rw [resolve_of_readable hr] at hv
      cases hv
      obtain ⟨j, hj, rfl⟩ := Res.map_eq_ok.1 hu
      exact .lookBack rfl hr j hj
    · exact .fault r
  | lookAhead da flag operand =>
    rcases runArmAdvance_eq_next h with ⟨vp, u, hr, hv, hu, rfl⟩ | ⟨r, rfl⟩
    · rw [resolve_of_readable hr] at hv
      cases hv
      obtain ⟨j, hj, rfl⟩ := Res.map_eq_ok.1 hu
      exact .lookAhead rfl hr j hj
    · exact .fault r
  | add da flag operand => exact arith_next (i := .add da flag operand) rfl h
  | sub da flag operand => exact arith_next (i := .sub da flag operand) rfl h
  | mul da flag operand => exact arith_next (i := .mul da flag operand) rfl h
  | div da flag operand => exact arith_next (i := .div da flag operand) rfl h
  | mod da flag operand => exact arith_next (i := .mod da flag operand) rfl h

/-- Everything a step can do when it answers a next state. -/
theorem step_next {s t : State} (h : step s = .next t) :
    s.run = .running ∧
    ((s.progLength ≤ s.pc ∧ t = s.halt .ok) ∨
     (∃ w, s.prog[s.pc]? = some w ∧
       ((∃ r, decode s.cfg w = .reject r) ∧ t = s.takeFault ⟨.decodeFault, none⟩ ∨
        ∃ i, decode s.cfg w = .instr i ∧ ExecNext i s t))) := by
  unfold step at h
  cases hrun : s.run with
  | haltedOk => simp [hrun, noStep] at h
  | haltedFault => simp [hrun, noStep] at h
  | running =>
    refine ⟨rfl, ?_⟩
    simp only [hrun, fetch, progRead] at h
    cases hw : s.prog[s.pc]? with
    | none =>
      simp only [hw, endOfProgram, Host.Outcome.next.injEq] at h
      exact .inl ⟨List.getElem?_eq_none_iff.1 hw, h.symm⟩
    | some w =>
      simp only [hw] at h
      refine .inr ⟨w, rfl, ?_⟩
      cases hd : decode s.cfg w with
      | reject r =>
        simp only [hd, undecodable, Host.Outcome.next.injEq] at h
        exact .inl ⟨⟨r, rfl⟩, h.symm⟩
      | instr i =>
        simp only [hd] at h
        exact .inr ⟨i, rfl, exec_next h⟩

/-- A word placed at an index stands there. -/
theorem placeWord_self (p : List ProgWord) (i : Nat) (w : ProgWord) :
    (placeWord p i w)[i]? = some w := by
  induction i generalizing p with
  | zero => cases p <;> rfl
  | succ i ih => cases p <;> simpa [placeWord] using ih _

/-- Every other word of the program stands as before. -/
theorem placeWord_other {p : List ProgWord} {i j : Nat} (w : ProgWord) (hj : j < p.length)
    (hne : j ≠ i) : (placeWord p i w)[j]? = p[j]? := by
  induction p generalizing i j with
  | nil => simp at hj
  | cons x p ih =>
    cases i <;> cases j
    · omega
    · rfl
    · rfl
    · simpa [placeWord] using ih (by simpa using hj) (by omega)

/-- The next step fetches the word that `withFetchWord` places. -/
theorem fetch_withFetchWord (s : State) (nbits w : Nat) :
    fetch (s.withFetchWord nbits w) = some (.ofTableWord nbits w) :=
  placeWord_self s.prog s.pc (.ofTableWord nbits w)

end Sys2Proof.Machine
end

