-- ==== Sys2Proof/Tests/Slice0.lean ====
section
/-! SUPPORT. The model's own tests: the checks of WellFormed, decoding by words written out from the field table, one or two steps per instruction, and a witness for the hypotheses of each statement. Expected values are those of 95_test_vectors.md, or hand calculation from the rule named. -/

namespace Sys2Proof.Tests

open Sys2Proof Sys2Proof.Machine

/-! ### Helpers -/

/-- A machine with the default configuration and these words, at reset. -/
def boot (ws : List Nat) : State :=
  State.construct Config.default (ws.map (ProgWord.ofTableWord 24)) []

/-- The same with a tape of 128 cells. -/
def boot128 (ws : List Nat) : State :=
  State.construct { Config.default with tapeSize := 128 } (ws.map (ProgWord.ofTableWord 24)) []

/-- The same with these input lines. -/
def bootLines (ws : List Nat) (ls : List Line) : State :=
  State.construct Config.default (ws.map (ProgWord.ofTableWord 24)) ls

/-- The same in an output mode. -/
def bootMode (m : OutputMode) (ws : List Nat) : State :=
  State.construct { Config.default with outputMode := m } (ws.map (ProgWord.ofTableWord 24)) []

/-- A field of the state one step leads to, if there is one. -/
def after {α : Type} (s : State) (f : State → α) : Option α :=
  match step s with
  | .next t => some (f t)
  | .fault _ => none
  | .refused _ => none

/-- Why a step does not exist, if it does not. -/
def stops (s : State) : Option Fault :=
  match step s with
  | .next _ => none
  | .fault f => some f
  | .refused _ => none

theorem all_between {p : Nat → Bool} (a b : Nat)
    (h : (List.range (b + 1)).all (fun j => decide (j < a) || p j) = true) :
    ∀ j, a ≤ j → j ≤ b → p j = true := by
  intro j ha hb
  have := List.all_eq_true.1 h j (by simp; omega)
  simpa [Nat.not_lt.2 ha] using this

theorem none_between {p : Nat → Bool} (a b : Nat)
    (h : (List.range (b + 1)).all (fun j => decide (j < a) || !p j) = true) :
    ∀ j, a ≤ j → j ≤ b → p j = false := by
  intro j ha hb
  have := List.all_eq_true.1 h j (by simp; omega)
  simpa [Nat.not_lt.2 ha] using this

/-! ### WellFormed: each check refuses an ill-formed term -/

theorem test_default_config_wf : Config.default.wf = true := by decide

theorem test_no_cells_refused : Config.wf { Config.default with tapeSize := 0 } = false := by decide

theorem test_shared_digit_refused :
    Config.wf { Config.default with opMap := { OpMap.default with mod := 0x0 } } = false := by decide

theorem test_ok_code_not_zero_refused :
    StatusCodes.wf { StatusCodes.default with ok := 9 } = false := by decide

theorem test_shared_status_code_refused :
    StatusCodes.wf { StatusCodes.default with unknown := 3 } = false := by decide

theorem test_tape_init_not_rising_refused :
    Config.tapeInitWf { Config.default with tapeInit := [(7, 1), (7, 2)] } = false := by decide

theorem test_tape_init_zero_entry_refused :
    Config.tapeInitWf { Config.default with tapeInit := [(7, 0)] } = false := by decide

theorem test_tape_init_outside_refused :
    Config.tapeInitWf { Config.default with tapeInit := [(256, 1)] } = false := by decide

theorem test_instr_sharing_its_digit_refused :
    Instr.wf { Config.default with opMap := { OpMap.default with mod := 0x0 } } (.exit 0 0 0) = false ∧
    Instr.wf { Config.default with opMap := { OpMap.default with mod := 0x0 } } (.add 0 0 0) = true := by
  decide

/-! ### Decoding: words written out bit by bit from R82 and R88 -/

theorem test_decode_exit : decodeTableWord 24 0b0000_10101011_0000_00000000 = some (.exit 0xAB 0 0x00) := by decide
theorem test_decode_set : decodeTableWord 24 0b0001_00010010_0001_00110100 = some (.set 0x12 1 0x34) := by decide
theorem test_decode_print : decodeTableWord 24 0b0010_00000000_0001_00000100 = some (.print 0x00 1 0x04) := by decide
theorem test_decode_input : decodeTableWord 24 0b0011_00010000_0001_00100000 = some (.input 0x10 1 0x20) := by decide
theorem test_decode_label : decodeTableWord 24 0b0100_10101011_0001_11001101 = some (.label 0xAB 1 0xCD) := by decide
theorem test_decode_lookBack : decodeTableWord 24 0b0101_00000000_0000_10101010 = some (.lookBack 0x00 0 0xAA) := by decide
theorem test_decode_lookAhead : decodeTableWord 24 0b0110_00000000_0001_00000000 = some (.lookAhead 0x00 1 0x00) := by decide
theorem test_decode_add : decodeTableWord 24 0b0111_11111111_0001_11111111 = some (.add 0xFF 1 0xFF) := by decide
theorem test_decode_sub : decodeTableWord 24 0b1000_00010000_0000_00000001 = some (.sub 0x10 0 0x01) := by decide
theorem test_decode_mul : decodeTableWord 24 0b1001_00010000_0000_01000000 = some (.mul 0x10 0 0x40) := by decide
theorem test_decode_div : decodeTableWord 24 0b1010_00010000_0000_00010000 = some (.div 0x10 0 0x10) := by decide
theorem test_decode_mod : decodeTableWord 24 0b1011_00000101_1111_00000110 = some (.mod 0x05 0xF 0x06) := by decide

/-- V-ENC8, V-ENC9, V-ENC10: an illegal digit, a character that is no digit, five digits. -/
theorem test_decode_rejects :
    decode Config.default (.word 0xC00000) = .reject (.illegalOpcode 0xC) ∧
    ProgWord.ofDigits [1, 0, 0, 0, 0, 16] = .malformed ∧ ProgWord.ofDigits [1, 0, 0, 0, 0] = .malformed ∧
    decode Config.default .malformed = .reject .malformedWord := by decide

/-- R80: a word of the wrong length is malformed, longer or shorter than 24 bits. -/
theorem test_wrong_length_is_malformed :
    ProgWord.ofTableWord 32 0x1071000A = .malformed ∧ ProgWord.ofTableWord 16 0x71 = .malformed ∧
    decodeTableWord 24 0x1071000A = none := by decide

/-- R83's example: the text 71000A is the value 0x71000A. -/
theorem test_digits_pack_left_to_right : ProgWord.ofDigits [7, 1, 0, 0, 0, 10] = .word 0x71000A := by decide

/-- R96's examples. -/
theorem test_encode_as_assembled :
    encode Config.default (.add 0x10 0 0x0A) = 0x71000A ∧
    encode Config.default (.lookAhead 0x00 1 0x00) = 0x600100 ∧
    encode Config.default (.set 0x02 7 0xFF) = 0x1027FF := by decide

/-! ### Reset and the cycle -/

theorem test_reset : State.reset.pc = 0 ∧ State.reset.run = .running ∧ State.reset.tape.wf = true ∧
    State.reset.exitStatus? = none := by decide

/-- V-EN1: the empty program. -/
theorem test_empty_program : after State.reset (fun t => (t.run, t.status, t.pc)) = some (.haltedOk, .ok, 0) := by decide

/-- V-EN5. -/
theorem test_halted_stays : stops { boot [0x100001] with run := .haltedFault } = some .halted := by decide

/-- V-EN4. -/
theorem test_illegal_word : after (boot [0xF00000, 0x100001]) (fun t => (t.run, t.status, t.cause, t.pc)) =
    some (.haltedFault, .rainbowException, some ⟨.decodeFault, 0, none⟩, 0) := by decide

/-- V-EN6. -/
theorem test_internal_class :
    after (State.construct { Config.default with tapeSize := 128, oorClass := .internalException }
      [.ofTableWord 24 0x180001] []) (fun t => (t.status, t.cause, t.tape)) =
    some (.internalException, some ⟨.tapeRange 0x80, 0, none⟩, []) := by decide

theorem test_placed_word_runs : after (State.reset.withFetchWord 24 0x105042) (fun t => (t.tape, t.pc)) =
    some ([(0x05, 0x42)], 1) := by decide

/-- D33. -/
theorem test_ports : outputModePort .hex = 2 ∧ runPort .haltedFault = 2 ∧
    (State.halt State.reset .unknown).statusPort? = some 4 := by decide

/-! ### One or two steps per instruction -/

/-- V-EX7's second step, V-EX11. -/
theorem test_exit_indirect : after { boot [0x000105] with tape := [(5, 1)] } (fun t => (t.run, t.status, t.pc)) =
    some (.haltedOk, .programException, 0) := by decide
theorem test_exit_bad_operand : after (boot128 [0x000190]) (fun t => (t.run, t.cause)) =
    some (.haltedFault, some ⟨.tapeRange 0x90, 0, none⟩) := by decide

/-- V-SET2's second step, V-SET8. -/
theorem test_set_copies : after { boot [0x106105] with tape := [(5, 7)] } State.tape = some [(5, 7), (6, 7)] := by decide
theorem test_set_operand_faults_first : after (boot128 [0x180190]) State.cause =
    some (some ⟨.tapeRange 0x90, 0, none⟩) := by decide

/-- V-AR1, V-AR3. -/
theorem test_add_wraps : after { boot [0x71000A] with tape := [(0x10, 0xFA)] } State.tape = some [(0x10, 0x04)] := by decide
theorem test_add_largest : after { boot [0x7100FF] with tape := [(0x10, 0xFF)] } State.tape = some [(0x10, 0xFE)] := by decide

/-- V-AR7, V-AR8. -/
theorem test_sub_below_zero : after (boot [0x810001]) State.tape = some [(0x10, 0xFF)] := by decide
theorem test_sub_order : after { boot [0x810005] with tape := [(0x10, 0x03)] } State.tape = some [(0x10, 0xFE)] := by decide

/-- V-AR14, V-AR15. -/
theorem test_mul_wraps : after { boot [0x9100FF] with tape := [(0x10, 0xFF)] } State.tape = some [(0x10, 0x01)] := by decide
theorem test_mul_low_byte : after { boot [0x910002] with tape := [(0x10, 0xC8)] } State.tape = some [(0x10, 0x90)] := by decide

/-- V-AR24, V-AR28. -/
theorem test_div_unsigned : after { boot [0xA10002] with tape := [(0x10, 0xF6)] } State.tape = some [(0x10, 0x7B)] := by decide
theorem test_div_zero_by_zero : after (boot [0xA10000]) (fun t => (t.run, t.cause, t.pc)) =
    some (.haltedFault, some ⟨.divideByZero, 0, none⟩, 0) := by decide

/-- V-AR34; the fault order of R245: the cell before the divisor. -/
theorem test_mod_remainder : after { boot [0xB10007] with tape := [(0x10, 0x64)] } State.tape = some [(0x10, 0x02)] := by decide
theorem test_mod_range_before_zero : after (boot128 [0xB80000]) State.cause = some (some ⟨.tapeRange 0x80, 0, none⟩) := by decide

/-- V-CF1; `LABEL [90]` with 128 cells (R180). -/
theorem test_label_advances : after (boot [0x4000AA]) State.pc = some 1 := by decide
theorem test_label_can_fault : after (boot128 [0x400190]) State.cause = some (some ⟨.tapeRange 0x90, 0, none⟩) := by decide

/-- V-CF2, V-CF4. -/
theorem test_lookBack_nearest : after { boot [0x4000AA, 0x4000AA, 0x700001, 0x5000AA] with pc := 3 } State.pc = some 2 := by decide
theorem test_lookBack_index_zero : after { boot [0x400007, 0x700001, 0x500007, 0] with pc := 2 } State.pc = some 1 := by decide

/-- V-CF12 at its second step, V-CF14. -/
theorem test_lookAhead_indirect_label :
    after { boot [0x100001, 0x600001, 0x1010AA, 0x400100, 0x1020BB, 0] with pc := 1, tape := [(0, 1)] } State.pc = some 4 := by decide
theorem test_lookAhead_meets_illegal_word : after (boot [0x600001, 0xF00000, 0x400001, 0]) (fun t => (t.cause, t.pc)) =
    some (some ⟨.decodeFault, 0, some 1⟩, 0) := by decide

/-- S7: Hex and Decimal mode. -/
theorem test_print_hex : after { bootMode .hex [0x200101] with tape := [(0, 0x48), (1, 0x6C)] } State.out =
    some [0x34, 0x38, 0x2D, 0x36, 0x43] := by decide
theorem test_print_decimal : after { bootMode .decimal [0x200102] with tape := [(1, 0x07), (2, 0xFF)] } State.out =
    some [0x30, 0x2D, 0x37, 0x2D, 0x32, 0x35, 0x35] := by decide

/-- V-IO31, V-IO32. -/
theorem test_input_sentinel_last : after (bootLines [0x310111] [[0x61, 0x62, 0x63]]) (fun t => (t.tape, t.consumed)) =
    some ([(0x10, 0x61), (0x11, 0x13), (0x12, 0x63)], 1) := by decide
theorem test_input_too_long : after (bootLines [0x3FE100] [[0x61, 0x62, 0x63]]) (fun t => (t.tape, t.cause, t.consumed, t.pc)) =
    some ([], some ⟨.tapeRange 0x100, 0, none⟩, 1, 0) := by decide

/-! ### Witnesses: the hypotheses of each statement are met -/

/-- A machine that has looked ahead past a Label and stands on a LookBack. -/
def scanned : State := { boot [0x600001, 0x400001, 0x5000AA, 0x000000] with pc := 2 }

theorem scanned_consistent : Consistent scanned :=
  ⟨by decide, by decide, by decide, by decide, by decide, fun _ => rfl, fun h => by cases h⟩

theorem scanned_prefix : ScannedPrefix scanned := fun _ i hi =>
  all_between 0 1 (by decide) i (Nat.zero_le _) (Nat.le_of_lt_succ hi)

theorem witness_ConstructionIsConsistent : ∃ c : Config, c.wf = true := ⟨Config.default, by decide⟩

theorem witness_StepKeepsConsistent : ∃ s t : State, Consistent s ∧ step s = .next t :=
  ⟨scanned, _, scanned_consistent, rfl⟩

theorem witness_StepKeepsScannedPrefix :
    ∃ s t : State, Consistent s ∧ ScannedPrefix s ∧ s.pc = 2 ∧ s.pc < s.progLength ∧ step s = .next t :=
  ⟨scanned, _, scanned_consistent, scanned_prefix, rfl, by decide, rfl⟩

theorem witness_LookBackCompletesAfterScan :
    ∃ (s : State) (w : ProgWord) (da : Byte) (flag : Digit) (operand : Byte),
      s.run = .running ∧ ScannedPrefix s ∧ s.prog[s.pc]? = some w ∧
      decode s.cfg w = .instr (.lookBack da flag operand) ∧ OperandReadable s flag operand :=
  ⟨scanned, .word 0x5000AA, 0, 0, 0xAA, rfl, scanned_prefix, by decide, by decide, by decide⟩

/-- The same at index 0, where no word stands behind. -/
theorem witness_LookBackCompletesAfterScan_at_zero :
    ∃ s : State, s.run = .running ∧ s.pc = 0 ∧ ScannedPrefix s ∧ s.prog[0]? = some (.word 0x5000AA) ∧
      decode s.cfg (.word 0x5000AA) = .instr (.lookBack 0 0 0xAA) ∧ OperandReadable s 0 0xAA :=
  ⟨boot [0x5000AA], rfl, rfl, fun _ _ h => absurd h (Nat.not_lt_zero _), by decide, by decide, by decide⟩

theorem witness_StepRunsDecodedInstruction :
    ∃ (s : State) (w : ProgWord) (i : Instr), s.run = .running ∧ s.prog[s.pc]? = some w ∧
      decode s.cfg w = .instr i :=
  ⟨scanned, .word 0x5000AA, .lookBack 0 0 0xAA, by decide, by decide, by decide⟩

theorem witness_StepRunsEncodedInstruction :
    ∃ (s : State) (i : Instr), s.run = .running ∧ i.wf s.cfg = true ∧
      s.prog[s.pc]? = some (.word (encode s.cfg i)) :=
  ⟨scanned, .lookBack 0 0 0xAA, by decide, by decide, by decide⟩

/-- Placed at `pc = 0` in the empty program, and at the last index of a longer one. -/
theorem witness_PlacedWordIsFetched :
    decode State.reset.cfg (.ofTableWord 24 0x71000A) = .instr (.add 0x10 0 0x0A) ∧
    ∃ j, j < scanned.progLength ∧ j ≠ scanned.pc := by
  exact ⟨by decide, 3, by decide, by decide⟩

theorem witness_UndecodableWordFaults :
    (boot [0xC00000]).run = .running ∧ (boot [0xC00000]).prog[0]? = some (.word 0xC00000) ∧
    (∀ op, (boot [0xC00000]).cfg.opMap.digit op ≠ opcodeField 0xC00000) ∧
    (State.construct Config.default [.malformed] []).prog[0]? = some .malformed :=
  ⟨rfl, by decide, fun op => by cases op <;> decide, by decide⟩

theorem witness_EndOfProgramHaltsOk :
    ∃ s : State, s.run = .running ∧ 0 < s.progLength ∧ s.progLength ≤ s.pc :=
  ⟨{ boot [0x100001] with pc := 1 }, by decide⟩

theorem witness_HaltedMachineTakesNoStep :
    ∃ s t : State, s.run = .haltedOk ∧ t.run = .haltedFault :=
  ⟨State.reset.halt .ok, State.reset.takeFault ⟨.decodeFault, none⟩, rfl, rfl⟩

theorem witness_StepNeverWritesConstruction : ∃ s t : State, step s = .next t := ⟨scanned, _, rfl⟩

/-- A step that goes on, one that halts without a fault, one that faults. -/
theorem witness_StatusIsWrittenOnce :
    (∃ s t : State, step s = .next t ∧ t.run = .running) ∧
    (∃ s t : State, step s = .next t ∧ t.run = .haltedOk) ∧
    ∃ s t : State, step s = .next t ∧ t.run = .haltedFault :=
  ⟨⟨scanned, _, rfl, rfl⟩, ⟨boot [0x000005], _, rfl, rfl⟩, ⟨boot [0xA05000], _, rfl, rfl⟩⟩

/-- A fault that consumes no line, and one that does. -/
theorem witness_FaultEntryWritesOnlyItsRecord :
    (∃ s t : State, step s = .next t ∧ t.run = .haltedFault ∧ t.consumed = s.consumed) ∧
    ∃ s t : State, step s = .next t ∧ t.run = .haltedFault ∧ t.consumed = s.consumed + 1 :=
  ⟨⟨boot [0xA05000], _, rfl, rfl, rfl⟩, ⟨bootLines [0x3FE100] [[0x61, 0x62, 0x63]], _, rfl, rfl, rfl⟩⟩

theorem witness_FaultClassesAsSpecified :
    ∃ c c' : Config, c.oorClass = .rainbowException ∧ c'.oorClass = .internalException :=
  ⟨Config.default, { Config.default with oorClass := .internalException }, rfl, rfl⟩

/-- A step, a step that halts, a step that faults, and a stop. -/
theorem witness_OutputStatusCauseAreNeverRead :
    (∃ s t : State, step s = .next t ∧ t.run = .running) ∧
    (∃ s t : State, step s = .next t ∧ t.run = .haltedOk) ∧
    (∃ s t : State, step s = .next t ∧ t.run = .haltedFault) ∧ ∃ s f, step s = .fault f :=
  ⟨⟨scanned, _, rfl, rfl⟩, ⟨boot [0x000005], _, rfl, rfl⟩, ⟨boot [0xA05000], _, rfl, rfl⟩,
    ⟨boot [0x310120], .waitingForLine, rfl⟩⟩

/-- An instruction with none of the effects, and one with each. -/
theorem witness_OnlyTheirOpcodesHaveTheEffect :
    (∃ t, exec (.label 0 0 0) scanned = .next t) ∧ (∃ t, exec (.print 0 0 0) scanned = .next t) ∧
    (∃ t, exec (.set 0 0 1) scanned = .next t) ∧
    ∃ t, exec (.input 0x10 1 0x20) (bootLines [0x310120] [[0x61]]) = .next t :=
  ⟨⟨_, rfl⟩, ⟨_, rfl⟩, ⟨_, rfl⟩, ⟨_, rfl⟩⟩

theorem witness_HighCellsBelongToInput :
    ∃ (i : Instr) (s t : State) (a : Nat), s.tape.wf = true ∧ i.opcode ≠ .input ∧ a = 256 ∧ 256 ≤ a ∧
      a < s.cfg.tapeSize ∧ exec i s = .next t :=
  ⟨.add 0xFF 0 1, State.construct { Config.default with tapeSize := 2048 } [] [], _, 256, by decide,
    by decide, rfl, by decide, by decide, rfl⟩

theorem witness_CanonicalTapesThatReadAlikeAreEqual :
    ∃ m m' : Memory, m.wf = true ∧ m'.wf = true ∧ m ≠ [] ∧ ∀ a, m.read a = m'.read a :=
  ⟨[(3, 9)], Memory.write [] 3 9, by decide, by decide, by decide, fun _ => rfl⟩

theorem witness_DecodeOfEncodeIsTheInstruction : ∃ (c : Config) (i : Instr), i.wf c = true :=
  ⟨Config.default, .mod 0xFF 0xF 0xFF, by decide⟩

theorem witness_EncodeOfDecodeIsTheWord :
    ∃ (c : Config) (w : Packed) (i : Instr), decode c (.word w) = .instr i ∧ c.opMap.wf = true :=
  ⟨Config.default, 0xBFFFFF, .mod 0xFF 0xF 0xFF, by decide, by decide⟩

theorem witness_FieldsAreTheDigitsOfTheWord :
    ∃ i, decode Config.default (.word (packDigits 0xB 0xF 0x0 0x1 0x0 0xF)) = .instr i :=
  ⟨.mod 0xF0 1 0x0F, by decide⟩

/-- The last legal and the first illegal word. -/
theorem witness_DecoderRejectsExactlyIllegalWords :
    decode Config.default (.word 0xBFFFFF) = .instr (.mod 0xFF 0xF 0xFF) ∧
    decode Config.default (.word 0xC00000) = .reject (.illegalOpcode 0xC) := by decide

theorem witness_IgnoredDigitsDoNotMatter :
    ∃ (f f' : Digit) (s : State), f ≠ f' ∧ f ≠ s.cfg.indMark ∧ f' ≠ s.cfg.indMark :=
  ⟨0, 0xF, State.reset, by decide⟩

theorem witness_UnreadableOperandFaultsEveryOpcode :
    ∃ (i : Instr) (s : State), i.flag = s.cfg.indMark ∧ s.cfg.tapeSize = i.operand.toNat :=
  ⟨.label 0 1 0x80, boot128 [], by decide⟩

theorem witness_CellOutOfRangeFaults :
    ∃ (i : Instr) (s : State), OperandReadable s i.flag i.operand ∧ s.cfg.tapeSize ≤ i.da.toNat ∧
      i.opcode ∈ [Opcode.set, .print, .input, .add, .sub, .mul, .div, .mod] :=
  ⟨.div 0x80 0 0, boot128 [], by decide⟩

/-- Both modes, at the last cell of the tape. -/
theorem witness_SetStoresTheValue :
    ∃ (s : State) (da operand : Byte), CellValid s da ∧ da.toNat + 1 = s.cfg.tapeSize ∧
      (0 : Digit) ≠ s.cfg.indMark ∧ (1 : Digit) = s.cfg.indMark ∧ operand.toNat < s.cfg.tapeSize :=
  ⟨boot128 [], 0x7F, 0x7F, by decide⟩

theorem witness_SetIsReadBack :
    ∃ (s : State) (da operand : Byte), s.tape.wf = true ∧ CellValid s da ∧
      OperandReadable s 1 operand := ⟨State.reset, 0xFF, 0xFF, by decide⟩

/-- The two sides of the carry: 255 and 256. -/
theorem witness_AddWrapsModulo256 :
    ∃ (s : State) (da : Byte), CellValid s da ∧ OperandReadable s 0 1 ∧ OperandReadable s 0 2 ∧
      (s.tape.read da.toNat).toNat + (operandValue s 0 1).toNat = 255 ∧
      (s.tape.read da.toNat).toNat + (operandValue s 0 2).toNat = 256 :=
  ⟨{ State.reset with tape := [(0x10, 0xFE)] }, 0x10, by decide⟩

/-- The two sides of the borrow: equal operands, and one more. -/
theorem witness_SubWrapsModulo256 :
    ∃ (s : State) (da : Byte), CellValid s da ∧ OperandReadable s 0 3 ∧ OperandReadable s 0 4 ∧
      (operandValue s 0 3).toNat = (s.tape.read da.toNat).toNat ∧
      (s.tape.read da.toNat).toNat + 1 = (operandValue s 0 4).toNat :=
  ⟨{ State.reset with tape := [(0x10, 3)] }, 0x10, by decide⟩

theorem witness_MulKeepsTheLowByte :
    ∃ (s : State) (da : Byte), CellValid s da ∧ OperandReadable s 1 da := ⟨State.reset, 0xFF, by decide⟩

theorem witness_DivAndModDecomposeTheCell :
    ∃ (s : State) (da : Byte), CellValid s da ∧ OperandReadable s 0 1 ∧ operandValue s 0 1 ≠ 0 :=
  ⟨State.reset, 0xFF, by decide⟩

/-- A literal zero, a zero cell, and a cell that is not zero. -/
theorem witness_ZeroDivisorFaults :
    ∃ s : State, (0 : Digit) ≠ s.cfg.indMark ∧ CellValid s 0x10 ∧ OperandReadable s 0 0 ∧
      OperandReadable s 1 6 ∧ OperandReadable s 1 7 ∧ operandValue s 0 0 = 0 ∧
      operandValue s 1 6 = 0 ∧ operandValue s 1 7 ≠ 0 ∧
      (Instr.div 0x10 1 6).opcode ∈ [Opcode.div, .mod] :=
  ⟨{ State.reset with tape := [(7, 1)] }, by decide⟩

theorem witness_SameCellOnBothSides :
    ∃ s : State, CellValid s 5 ∧ CellValid s 6 ∧ s.tape.read (5 : Byte).toNat ≠ 0 ∧
      s.tape.read (6 : Byte).toNat = 0 := ⟨{ State.reset with tape := [(5, 0x60)] }, by decide⟩

/-- A completing form and a faulting one. -/
theorem witness_CellWriteFrame :
    (∃ t, exec (.sub 0x10 0 1) State.reset = .next t ∧ t.run = .running) ∧
    ∃ t, exec (.mod 0x10 0 0) State.reset = .next t ∧ t.run = .haltedFault :=
  ⟨⟨_, rfl, rfl⟩, ⟨_, rfl, rfl⟩⟩

theorem witness_OverflowIsNoFault :
    ∃ (i : Instr) (s : State), i.opcode ∈ [Opcode.add, .sub, .mul] ∧ CellValid s i.da ∧
      OperandReadable s i.flag i.operand ∧
      255 < (s.tape.read i.da.toNat).toNat + (operandValue s i.flag i.operand).toNat :=
  ⟨.add 5 1 5, { State.reset with tape := [(5, 0xFF)] }, by decide⟩

theorem witness_ExitEndsTheRun : ∃ s : State, OperandReadable s 1 5 := ⟨State.reset, by decide⟩

/-- A code map, and a value that is no code of it. -/
theorem witness_StatusOfIsTheInverseOfTheCodes :
    StatusCodes.default.wf = true ∧ (∀ st, statusCodeOf StatusCodes.default st ≠ 5) ∧
    4 ≤ (4 : Byte).toNat := ⟨by decide, fun st => by cases st <;> decide, by decide⟩

theorem witness_LabelOnlyAdvances : ∃ s : State, OperandReadable s 1 0x7F ∧ s.cfg.tapeSize = 128 :=
  ⟨boot128 [], by decide⟩

/-- An illegal word, an indirect word just outside the tape, one just inside, and an immediate one. -/
theorem witness_MatchTestAsSpecified :
    ∃ s : State, (∃ w r, s.prog[0]? = some w ∧ decode s.cfg w = .reject r) ∧
      (∃ w j, s.prog[1]? = some w ∧ decode s.cfg w = .instr j ∧ j.flag = s.cfg.indMark ∧
        s.cfg.tapeSize = j.operand.toNat) ∧
      (∃ w j, s.prog[2]? = some w ∧ decode s.cfg w = .instr j ∧ j.flag = s.cfg.indMark ∧
        j.operand.toNat + 1 = s.cfg.tapeSize) ∧
      ∃ w j, s.prog[3]? = some w ∧ decode s.cfg w = .instr j ∧ j.flag ≠ s.cfg.indMark :=
  ⟨boot128 [0xF00000, 0x400180, 0x40017F, 0x4000AA],
    ⟨.word 0xF00000, .illegalOpcode 0xF, by decide⟩, ⟨.word 0x400180, .label 0 1 0x80, by decide⟩,
    ⟨.word 0x40017F, .label 0 1 0x7F, by decide⟩, ⟨.word 0x4000AA, .label 0 0 0xAA, by decide⟩⟩

/-- The nearest Label at index 1, the lowest a search can match. -/
theorem witness_LookBackGoesPastTheNearestLabel :
    ∃ (s : State) (k : Nat), OperandReadable s 0 1 ∧ 1 ≤ k ∧ k = 1 ∧ k ≤ s.pc ∧
      (∀ j, k ≤ j → j ≤ s.pc → inspectable s j = true) ∧ carriesLabel s k (operandValue s 0 1) = true ∧
      ∀ j, k < j → j ≤ s.pc → carriesLabel s j (operandValue s 0 1) = false :=
  ⟨scanned, 1, by decide, by decide, rfl, by decide, all_between 1 2 (by decide), by decide,
    none_between (p := fun j => carriesLabel scanned j (operandValue scanned 0 1)) 2 2 (by decide)⟩

/-- No index to inspect, two indices without a match, and a program of one word. -/
theorem witness_FailedLookBackGoesToIndexOne :
    (∃ s : State, s.pc = 0 ∧ OperandReadable s 0 7 ∧ s.run = .running ∧ s.progLength = 1) ∧
    ∃ s : State, s.pc = 2 ∧ OperandReadable s 0 7 ∧
      ∀ j, 1 ≤ j → j ≤ s.pc → inspectable s j = true ∧ carriesLabel s j (operandValue s 0 7) = false :=
  ⟨⟨boot [0x500007], by decide⟩, scanned, rfl, by decide, fun j h h' =>
    ⟨all_between 1 2 (by decide) j h h', none_between
      (p := fun j => carriesLabel scanned j (operandValue scanned 0 7)) 1 2 (by decide) j h h'⟩⟩

theorem witness_LookBackNeverInspectsIndexZero :
    ∃ (s t : State), exec (.lookBack 0 0 0xAA) s = .next t ∧ t.run = .running := ⟨scanned, _, rfl, rfl⟩

/-- The nearest Label at index `N - 2`, the highest a search can match. -/
theorem witness_LookAheadGoesPastTheNearestLabel :
    ∃ (s : State) (k : Nat), OperandReadable s 0 2 ∧ s.pc ≤ k ∧ k + 2 = s.progLength ∧
      k + 1 < s.progLength ∧ (∀ j, s.pc ≤ j → j ≤ k → inspectable s j = true) ∧
      carriesLabel s k (operandValue s 0 2) = true ∧
      ∀ j, s.pc ≤ j → j < k → carriesLabel s j (operandValue s 0 2) = false :=
  ⟨boot [0x600002, 0x400001, 0x400002, 0x000000], 2, by decide, by decide, rfl, by decide,
    all_between 0 2 (by decide), by decide,
    fun j h h' => none_between (p := fun j => carriesLabel (boot [0x600002, 0x400001, 0x400002, 0x000000]) j
      (operandValue (boot [0x600002, 0x400001, 0x400002, 0x000000]) 0 2)) 0 1 (by decide) j h
      (Nat.le_of_lt_succ h')⟩

/-- The only Label at the last index, which is not inspected. -/
theorem witness_FailedLookAheadEndsTheRun :
    ∃ s : State, OperandReadable s 0 7 ∧ s.pc < s.progLength ∧ s.run = .running ∧
      ∀ j, s.pc ≤ j → j + 1 < s.progLength →
        inspectable s j = true ∧ carriesLabel s j (operandValue s 0 7) = false :=
  ⟨boot [0x600007, 0x100001, 0x400007], by decide, by decide, rfl, fun j h h' =>
    ⟨all_between 0 1 (by decide) j h (Nat.le_of_lt_succ (Nat.lt_of_succ_lt_succ h')),
      none_between (p := fun j => carriesLabel (boot [0x600007, 0x100001, 0x400007]) j
        (operandValue (boot [0x600007, 0x100001, 0x400007]) 0 7)) 0 1 (by decide) j h
        (Nat.le_of_lt_succ (Nat.lt_of_succ_lt_succ h'))⟩⟩

theorem witness_LookAheadNeverInspectsTheLastIndex :
    ∃ (s t : State), s.pc < s.progLength ∧ exec (.lookAhead 0 0 9) s = .next t ∧ t.run = .running :=
  ⟨boot [0x600009, 0x100001, 0xF00000], _, by decide, rfl, rfl⟩

/-- An illegal word at index 1 of a backward search, and one at `N - 2` of a forward search. -/
theorem witness_SearchFaultsOnTheFirstBadWord :
    (∃ (s : State) (w : ProgWord) (r : DecodeReject), OperandReadable s 0 1 ∧ s.prog[1]? = some w ∧
      decode s.cfg w = .reject r ∧ 1 ≤ s.pc ∧
      ∀ j, 1 < j → j ≤ s.pc →
        inspectable s j = true ∧ carriesLabel s j (operandValue s 0 1) = false) ∧
    ∃ (s : State) (w : ProgWord) (i : Instr), OperandReadable s 0 1 ∧ s.prog[1]? = some w ∧
      decode s.cfg w = .instr i ∧ ¬ OperandReadable s i.flag i.operand ∧ s.pc ≤ 1 ∧
      s.progLength = 3 ∧ ∀ j, s.pc ≤ j → j < 1 →
        inspectable s j = true ∧ carriesLabel s j (operandValue s 0 1) = false :=
  ⟨⟨{ boot [0x000000, 0xF00000, 0x500001] with pc := 2 }, .word 0xF00000, .illegalOpcode 0xF,
      by decide, by decide, by decide, by decide, fun j h h' =>
      ⟨all_between 2 2 (by decide) j h h', none_between
        (p := fun j => carriesLabel { boot [0x000000, 0xF00000, 0x500001] with pc := 2 } j
          (operandValue { boot [0x000000, 0xF00000, 0x500001] with pc := 2 } 0 1)) 2 2 (by decide) j h h'⟩⟩,
    boot128 [0x600001, 0x100190, 0x400001], .word 0x100190, .set 0 1 0x90, by decide, by decide,
    by decide, by decide, by decide, by decide, fun j h h' =>
      ⟨all_between 0 0 (by decide) j h (Nat.le_of_lt_succ h'),
        none_between (p := fun j => carriesLabel (boot128 [0x600001, 0x100190, 0x400001]) j
          (operandValue (boot128 [0x600001, 0x100190, 0x400001]) 0 1)) 0 0 (by decide) j h
          (Nat.le_of_lt_succ h')⟩⟩

/-- One Label, at the index `k` of a program of four words. -/
def oneLabel (k pc : Nat) : State :=
  { boot (([0x700001, 0x700001, 0x700001, 0x700001] : List Nat).set k 0x400007) with pc := pc }

theorem oneLabel_only (k pc : Nat)
    (h : (List.range 4).all (fun j => carriesLabel (oneLabel k pc) j 7 == (j == k)) = true) :
    ∀ j, j < (oneLabel k pc).progLength →
      (carriesLabel (oneLabel k pc) j (operandValue (oneLabel k pc) 0 7) = true ↔ j = k) := by
  have hlen : (oneLabel k pc).progLength = 4 := by
    simp [oneLabel, boot, State.construct, State.progLength]
  intro j hj
  have := List.all_eq_true.1 h j (by simp; omega)
  have hv : operandValue (oneLabel k pc) 0 7 = 7 := rfl
  rw [hv]
  simp only [beq_iff_eq] at this
  rw [this]
  simp

/-- The Label behind at index 0, ahead at the last index. -/
theorem witness_SingleLabelIsTheTarget :
    (OperandReadable (oneLabel 0 2) 0 7 ∧ 0 < (oneLabel 0 2).pc ∧
      (oneLabel 0 2).pc < (oneLabel 0 2).progLength ∧
      (∀ j, j < (oneLabel 0 2).progLength → inspectable (oneLabel 0 2) j = true) ∧
      ∀ j, j < (oneLabel 0 2).progLength →
        (carriesLabel (oneLabel 0 2) j (operandValue (oneLabel 0 2) 0 7) = true ↔ j = 0)) ∧
    OperandReadable (oneLabel 3 1) 0 7 ∧ (oneLabel 3 1).pc < 3 ∧ 3 < (oneLabel 3 1).progLength ∧
      (∀ j, j < (oneLabel 3 1).progLength → inspectable (oneLabel 3 1) j = true) ∧
      ∀ j, j < (oneLabel 3 1).progLength →
        (carriesLabel (oneLabel 3 1) j (operandValue (oneLabel 3 1) 0 7) = true ↔ j = 3) :=
  ⟨⟨by decide, by decide, by decide,
      fun j h => all_between 0 3 (by decide) j (Nat.zero_le _) (Nat.le_of_lt_succ h),
      oneLabel_only 0 2 (by decide)⟩,
    by decide, by decide, by decide,
    fun j h => all_between 0 3 (by decide) j (Nat.zero_le _) (Nat.le_of_lt_succ h),
    oneLabel_only 3 1 (by decide)⟩

/-- A search that goes on, and one that faults. -/
theorem witness_ControlFlowFrame :
    (∃ t, exec (.lookBack 0 0 0xAA) scanned = .next t ∧ t.run = .running) ∧
    ∃ t, exec (.lookAhead 0 0 1) (boot [0x600001, 0xF00000, 0x400001]) = .next t ∧
      t.run = .haltedFault := ⟨⟨_, rfl, rfl⟩, ⟨_, rfl, rfl⟩⟩

theorem witness_PrintAppendsTheRenderedRange :
    ∃ s : State, CellValid s 0x7F ∧ OperandReadable s 1 0x7F ∧ s.cfg.tapeSize = 128 :=
  ⟨boot128 [], by decide⟩

/-- Each of the four corners. -/
theorem witness_PrintRangeCorners :
    ∃ s : State, CellValid s 5 ∧ CellValid s 0 ∧ (0 : Digit) ≠ s.cfg.indMark ∧ (5 : Byte) ≠ 0 ∧
      (1 : Digit) = s.cfg.indMark ∧ (4 : Byte).toNat < (5 : Byte).toNat := ⟨State.reset, by decide⟩

theorem witness_InputStoresANumericLine :
    ∃ (s : State) (l : Line), s.tape.wf = true ∧ CellValid s 0x10 ∧ OperandReadable s 1 0x20 ∧
      s.nextLine = some l ∧ isNumeric s.cfg l = true ∧
      (0x10 : Byte).toNat ≠ operandAddress s 1 0x20 ∧ numVal l + 1 = s.cfg.tapeSize :=
  ⟨bootLines [] [[0x32, 0x35, 0x35]], [0x32, 0x35, 0x35], by decide⟩

/-- A line that ends in the last cell. -/
theorem witness_InputStoresATextLine :
    ∃ (s : State) (l : Line), s.tape.wf = true ∧ CellValid s 0xFE ∧ OperandReadable s 1 0x00 ∧
      s.nextLine = some l ∧ isNumeric s.cfg l = false ∧ (0xFE : Byte).toNat + l.length = s.cfg.tapeSize ∧
      (l : Line)[1]? = some 0x62 ∧ (0xFE : Byte).toNat + 1 ≠ operandAddress s 1 0x00 :=
  ⟨bootLines [] [[0x61, 0x62]], [0x61, 0x62], by decide⟩

/-- A line one byte too long. -/
theorem witness_InputTextTooLongFaults :
    ∃ (s : State) (l : Line), CellValid s 0xFE ∧ OperandReadable s 1 0x00 ∧ s.nextLine = some l ∧
      isNumeric s.cfg l = false ∧ s.cfg.tapeSize + 1 = (0xFE : Byte).toNat + l.length :=
  ⟨bootLines [] [[0x61, 0x62, 0x63]], [0x61, 0x62, 0x63], by decide⟩

/-- With no line at all, and with every line consumed. -/
theorem witness_InputWaitsForALine :
    (∃ s : State, CellValid s 0x10 ∧ OperandReadable s 1 0x20 ∧ s.consumed = s.inp.length) ∧
    ∃ s : State, CellValid s 0x10 ∧ OperandReadable s 1 0x20 ∧ s.consumed = s.inp.length ∧ s.consumed = 1 :=
  ⟨⟨boot [], by decide⟩, ⟨(bootLines [] [[0x61]]).consumeLine, by decide⟩⟩

/-- Six digits at their extremes, five and seven digits, a digit of 16, and the two wrong numbers. -/
theorem witness_WrongLengthWordIsMalformed :
    (([0, 15, 0, 15, 0, 15] : List Nat).length = 6 ∧ ∀ d ∈ ([0, 15, 0, 15, 0, 15] : List Nat), d < 16) ∧
    ([0, 0, 0, 0, 0] : List Nat).length ≠ 6 ∧ ([0, 0, 0, 0, 0, 0, 0] : List Nat).length ≠ 6 ∧
    (∃ d ∈ ([0, 0, 0, 0, 0, 16] : List Nat), 16 ≤ d) ∧ (23 : Nat) ≠ 24 ∧ 2 ^ 24 ≤ 0x1000000 := by decide

end Sys2Proof.Tests
end

namespace Sys2Proof.Machine

/-! ### The invariant `Consistent`: where a run begins -/

/-- The two halves of `TAPE_INIT`'s range in R5, out of a configuration's well-formedness. -/
theorem tapeInit_of_wf {c : Config} (h : c.wf = true) :
    Memory.wf c.tapeInit = true ∧ Memory.within c.tapeInit c.tapeSize = true := by
  simp only [Config.wf, Config.tapeInitWf, Bool.and_eq_true] at h
  exact h.2

theorem Consistent.construct {c : Config} (h : c.wf = true) (p : List ProgWord) (ls : List Line) :
    Consistent (State.construct c p ls) where
  cfg_wf := h
  tape_wf := (tapeInit_of_wf h).1
  tape_within := (tapeInit_of_wf h).2
  pc_le := Nat.zero_le _
  consumed_le := Nat.zero_le _
  no_cause _ := rfl
  fault_recorded hrun := nomatch hrun

/-- No word comes before `pc` where a run begins. -/
theorem ScannedPrefix.construct (c : Config) (p : List ProgWord) (ls : List Line) :
    ScannedPrefix (State.construct c p ls) :=
  fun _ i hi => absurd hi (Nat.not_lt_zero i)

theorem defaultConfig_wf : Config.default.wf = true := by decide

/-- Settles O2: nothing is written yet, and the tape is the well-formed `TAPE_INIT`. -/
theorem constructionIsConsistent : Obligations.ConstructionIsConsistent :=
  ⟨fun c p ls h => ⟨.construct h p ls, .construct c p ls⟩,
    .construct defaultConfig_wf [] [], .construct Config.default [] []⟩

/-! ### The invariant `Consistent`: each operation of a step keeps it -/

namespace Consistent
variable {s : State}

/-- Fault entry records its class and its cause, in a state that has a word to execute. -/
theorem takeFault (h : Consistent s) (hpc : s.pc < s.progLength) (r : Raise) :
    Consistent (s.takeFault r) :=
  { h with
    no_cause := fun hrun => absurd rfl hrun
    fault_recorded := fun _ => ⟨hpc, r.kind, r.inspected, rfl, rfl⟩ }

theorem halt (h : Consistent s) (hrun : s.run = .running) (st : ExitStatus) :
    Consistent (s.halt st) :=
  { h with
    no_cause := fun _ => h.no_cause (by simp [hrun])
    fault_recorded := fun hf => nomatch hf }

theorem withTape (h : Consistent s) {m : Memory} (hw : m.wf = true)
    (hn : m.within s.cfg.tapeSize = true) : Consistent (s.withTape m) :=
  { h with tape_wf := hw, tape_within := hn }

theorem emitAll (h : Consistent s) (bs : List Byte) : Consistent (s.emitAll bs) :=
  { h with }

/-- The line consumed is one of those supplied. -/
theorem consumeLine (h : Consistent s) {l : Line} (hl : s.nextLine = some l) :
    Consistent s.consumeLine :=
  have hlt : s.consumed < s.inp.length := (List.getElem?_eq_some_iff.1 hl).1
  { h with consumed_le := hlt }

/-- The advance from a word of the program, wherever a search has put `pc`. -/
theorem advance (h : Consistent s) (hrun : s.run = .running) (hpc : s.pc < s.progLength) :
    Consistent s.advance :=
  { h with
    pc_le := hpc
    fault_recorded := fun hf => absurd (hrun.symm.trans hf) (by decide) }

theorem jumpTo (h : Consistent s) (hrun : s.run = .running) {i : Nat} (hi : i < s.progLength) :
    Consistent (s.jumpTo i) :=
  { h with
    pc_le := hi.le
    fault_recorded := fun hf => absurd (hrun.symm.trans hf) (by decide) }

/-- Every next state of an instruction fetched from the program is consistent. -/
theorem of_execNext {t : State} {i : Instr} (h : Consistent s) (hrun : s.run = .running)
    (hpc : s.pc < s.progLength) (ht : ExecNext i s t) : Consistent t := by
  cases ht with
  | fault r => exact h.takeFault hpc r
  | exit _ _ => exact h.halt hrun _
  | write _ _ hd v =>
    exact (h.withTape (Memory.write_wf _ _ v h.tape_wf)
      (Memory.write_within _ _ _ v h.tape_within hd)).advance hrun hpc
  | print _ _ bs => exact (h.emitAll bs).advance hrun hpc
  | label _ _ => exact h.advance hrun hpc
  | lookBack _ _ j hj =>
    have hlt : j < s.progLength := (searchBack_le hj).trans_lt hpc
    exact (h.jumpTo hrun hlt).advance hrun hlt
  | lookAhead _ _ j hj =>
    have hlt : j < s.progLength := (searchAhead_lt hj hpc).2
    exact (h.jumpTo hrun hlt).advance hrun hlt
  | inputDone _ _ l hl m hw hn =>
    exact ((h.consumeLine hl).withTape (hw h.tape_wf) (hn h.tape_within)).advance hrun hpc
  | inputFault _ _ l hl r => exact (h.consumeLine hl).takeFault hpc r

end Consistent

/-- Settles O3, from what a step can do (`step_next`): the end of the program, the fault of a word
that does not decode, or an instruction. -/
theorem stepKeepsConsistent : Obligations.StepKeepsConsistent := by
  intro s t h ht
  obtain ⟨hrun, ⟨-, rfl⟩ | ⟨w, hw, hcase⟩⟩ := step_next ht
  · exact h.halt hrun .ok
  · have hpc : s.pc < s.progLength := (List.getElem?_eq_some_iff.1 hw).1
    rcases hcase with ⟨-, rfl⟩ | ⟨i, -, hi⟩
    · exact h.takeFault hpc _
    · exact h.of_execNext hrun hpc hi

/-! ### What no step writes -/

/-- No instruction writes the configuration, the program or the input lines (10_state.md R36). -/
theorem ExecNext.construction {i : Instr} {s t : State} (h : ExecNext i s t) :
    t.cfg = s.cfg ∧ t.prog = s.prog ∧ t.inp = s.inp := by
  cases h <;> exact ⟨rfl, rfl, rfl⟩

/-- Settles O12: neither the end of the program, nor fault entry, nor an instruction writes them. -/
theorem stepNeverWritesConstruction : Obligations.StepNeverWritesConstruction := by
  intro s t ht
  obtain ⟨-, ⟨-, rfl⟩ | ⟨w, -, ⟨-, rfl⟩ | ⟨i, -, hi⟩⟩⟩ := step_next ht
  · exact ⟨rfl, rfl, rfl⟩
  · exact ⟨rfl, rfl, rfl⟩
  · exact hi.construction

/-! ### Output, status and cause are never read

The idea: let a machine `u` run with an empty output, and lay what another machine had already
recorded under it (`State.onRecord`). Every operation of a step commutes with that, so the two
machines take the same step and append the same bytes. -/

/-- What a machine holds in the three fields no step reads (10_state.md R25, R26, R32). -/
structure Record where
  out : List Byte
  status : ExitStatus
  cause : Option CauseRecord

/-- The machine `u` begun with the record `k`: its own output follows that of `k`, and the status and
the cause are those of `k` until the run of `u` ends, or faults, and writes them. -/
def State.onRecord (k : Record) (u : State) : State :=
  { u with
    out := k.out ++ u.out
    status := if u.run = .running then k.status else u.status
    cause := if u.run = .haltedFault then u.cause else k.cause }

/-- The outcome with its next state, if it is one, replaced. -/
def mapNext (f : State → State) :
    Host.Outcome State Fault Refusal → Host.Outcome State Fault Refusal
  | .next t => .next (f t)
  | .fault r => .fault r
  | .refused r => .refused r

theorem mapNext_eq_next {f : State → State} {x : Host.Outcome State Fault Refusal} {t : State} :
    mapNext f x = .next t ↔ ∃ u, x = .next u ∧ f u = t := by
  cases x <;> simp [mapNext]

theorem mapNext_eq_fault {f : State → State} {x : Host.Outcome State Fault Refusal} {r : Fault} :
    mapNext f x = .fault r ↔ x = .fault r := by
  cases x <;> simp [mapNext]

/-! Sequencing, read from the other side: what follows moves into each part. -/

section Sequencing
variable {α β γ : Type}

theorem Res.map_bind (x : Res α) (f : α → Res β) (g : β → γ) :
    (x.bind f).map g = x.bind fun a => (f a).map g := by
  cases x <;> rfl

theorem Res.bind_map (x : Res α) (f : α → β) (g : β → Res γ) :
    (x.map f).bind g = x.bind fun a => g (f a) := by
  cases x <;> rfl

theorem Res.map_map (x : Res α) (f : α → β) (g : β → γ) :
    (x.map f).map g = x.map fun a => g (f a) := by
  cases x <;> rfl

end Sequencing

section OnRecord
variable (k : Record) (u : State)

/-! The operations of a step, one rule each. -/

@[simp] theorem State.onRecord_cfg : (u.onRecord k).cfg = u.cfg := rfl
@[simp] theorem State.onRecord_pc : (u.onRecord k).pc = u.pc := rfl
@[simp] theorem State.onRecord_run : (u.onRecord k).run = u.run := rfl
@[simp] theorem State.onRecord_nextLine : (u.onRecord k).nextLine = u.nextLine := rfl
@[simp] theorem State.onRecord_consumeLine :
    (u.onRecord k).consumeLine = u.consumeLine.onRecord k := rfl
@[simp] theorem State.onRecord_advance : (u.onRecord k).advance = u.advance.onRecord k := rfl
@[simp] theorem memRead_onRecord (a : Nat) : memRead (u.onRecord k) a = memRead u a := rfl
@[simp] theorem checkStart_onRecord (a : Nat) : checkStart (u.onRecord k) a = checkStart u a := rfl
@[simp] theorem resolve_onRecord (flag : Digit) (operand : Byte) :
    resolve (u.onRecord k) flag operand = resolve u flag operand := rfl
@[simp] theorem labelMatches_onRecord (i : Nat) (v : Byte) :
    labelMatches (u.onRecord k) i v = labelMatches u i v := rfl
@[simp] theorem fetch_onRecord : fetch (u.onRecord k) = fetch u := rfl

@[simp] theorem State.onRecord_emitAll (bs : List Byte) :
    (u.onRecord k).emitAll bs = (u.emitAll bs).onRecord k :=
  congrArg (fun o => { u.onRecord k with out := o }) (List.append_assoc k.out u.out bs)

/-- The cause is not written by a halt, so the run must not have ended in a fault before it. -/
theorem State.onRecord_halt {u : State} (hrun : u.run = .running) (st : ExitStatus) :
    (u.onRecord k).halt st = (u.halt st).onRecord k := by
  simp [State.onRecord, State.halt, hrun]

/-! The parts of an instruction. -/

@[simp] theorem memWrite_onRecord (a : Nat) (v : Byte) :
    memWrite (u.onRecord k) a v = (memWrite u a v).map (State.onRecord k) := by
  by_cases ha : a < u.cfg.tapeSize
  · rw [memWrite_of_lt ha, memWrite_of_lt (by exact ha)]
    rfl
  · rw [memWrite_of_ge ha, memWrite_of_ge (by exact ha)]
    rfl

theorem searchBack_onRecord (v : Byte) (i : Nat) :
    searchBack (u.onRecord k) v i = searchBack u v i := by
  induction i with
  | zero => rfl
  | succ i ih => simp only [searchBack, labelMatches_onRecord, ih]

theorem searchAheadFrom_onRecord (v : Byte) (i n : Nat) :
    searchAheadFrom (u.onRecord k) v i n = searchAheadFrom u v i n := by
  induction n generalizing i with
  | zero => rfl
  | succ n ih => simp only [searchAheadFrom, labelMatches_onRecord, ih]

theorem searchAhead_onRecord (v : Byte) (p : Nat) :
    searchAhead (u.onRecord k) v p = searchAhead u v p :=
  searchAheadFrom_onRecord k u v p _

theorem readCells_onRecord (a n : Nat) : readCells (u.onRecord k) a n = readCells u a n := by
  induction n generalizing a with
  | zero => rfl
  | succ n ih => simp only [readCells, memRead_onRecord, ih]

theorem jump_onRecord (x : Res Nat) :
    x.map (u.onRecord k).jumpTo = (x.map u.jumpTo).map (State.onRecord k) := by
  cases x <;> rfl

theorem printRange_onRecord (first last : Nat) :
    printRange (u.onRecord k) first last = (printRange u first last).map (State.onRecord k) := by
  simp only [printRange, checkStart_onRecord, readCells_onRecord, Res.map_bind, Res.map_map,
    State.onRecord_emitAll, State.onRecord_cfg]

theorem writeLine_onRecord (a : Nat) (line : Line) :
    writeLine (u.onRecord k) a line = (writeLine u a line).map (State.onRecord k) := by
  induction line generalizing u a with
  | nil => rfl
  | cons b bs ih => simp only [writeLine, memWrite_onRecord, Res.bind_map, Res.map_bind, ih]

theorem inputNumber_onRecord (start sent : Nat) (line : Line) :
    inputNumber (u.onRecord k) start sent line =
      (inputNumber u start sent line).map (State.onRecord k) := by
  simp only [inputNumber, memWrite_onRecord, State.onRecord_cfg, Res.bind_map, Res.map_bind]

theorem inputText_onRecord (start sent : Nat) (line : Line) :
    inputText (u.onRecord k) start sent line =
      (inputText u start sent line).map (State.onRecord k) := by
  unfold inputText
  rw [State.onRecord_cfg]
  split
  · rfl
  · simp only [writeLine_onRecord, memWrite_onRecord, Res.bind_map, Res.map_bind]

theorem inputLine_onRecord (start sent : Nat) (line : Line) :
    inputLine (u.onRecord k) start sent line =
      (inputLine u start sent line).map (State.onRecord k) := by
  unfold inputLine
  rw [State.onRecord_cfg]
  split
  · exact inputNumber_onRecord k u start sent line
  · exact inputText_onRecord k u start sent line

/-! Whole instructions. -/

theorem settle_onRecord (x : Res State) :
    settle (u.onRecord k) (x.map (State.onRecord k)) =
      mapNext (State.onRecord k) (settle u x) := by
  cases x <;> rfl

/-- An arm that commutes with the record makes an instruction that does. -/
theorem runArm_onRecord {arm arm' : ValuePart → Res State}
    (harm : ∀ vp, arm' vp = (arm vp).map (State.onRecord k)) (flag : Digit) (operand : Byte) :
    runArm (u.onRecord k) flag operand arm' =
      mapNext (State.onRecord k) (runArm u flag operand arm) := by
  obtain rfl : arm' = fun vp => (arm vp).map (State.onRecord k) := funext harm
  simp only [runArm, resolve_onRecord, ← settle_onRecord, Res.map_bind]

theorem runArmAdvance_onRecord {arm arm' : ValuePart → Res State}
    (harm : ∀ vp, arm' vp = (arm vp).map (State.onRecord k)) (flag : Digit) (operand : Byte) :
    runArmAdvance (u.onRecord k) flag operand arm' =
      mapNext (State.onRecord k) (runArmAdvance u flag operand arm) :=
  runArm_onRecord k u (fun vp => by rw [harm]; simp only [Res.map_map, State.onRecord_advance])
    flag operand

theorem arith_onRecord (op : ArithOp) (da : Byte) (flag : Digit) (operand : Byte) :
    arith op da flag operand (u.onRecord k) =
      mapNext (State.onRecord k) (arith op da flag operand u) :=
  runArmAdvance_onRecord k u
    (fun _ => by simp only [memRead_onRecord, memWrite_onRecord, Res.map_bind]) flag operand

theorem inputFrom_onRecord (start sent : Nat) :
    inputFrom (u.onRecord k) start sent = mapNext (State.onRecord k) (inputFrom u start sent) := by
  unfold inputFrom
  rw [State.onRecord_nextLine]
  cases u.nextLine with
  | none => rfl
  | some l =>
    simp only [State.onRecord_consumeLine, inputLine_onRecord, ← settle_onRecord, Res.map_map,
      State.onRecord_advance]

theorem execInput_onRecord (da : Byte) (flag : Digit) (operand : Byte) :
    execInput da flag operand (u.onRecord k) =
      mapNext (State.onRecord k) (execInput da flag operand u) := by
  unfold execInput
  rw [resolve_onRecord, checkStart_onRecord]
  cases (resolve u flag operand).bind fun vp => (checkStart u da.toNat).map fun _ => vp with
  | raise r => rfl
  | ok vp => exact inputFrom_onRecord k u da.toNat vp.address

theorem exec_onRecord {u : State} (hrun : u.run = .running) (i : Instr) :
    exec i (u.onRecord k) = mapNext (State.onRecord k) (exec i u) := by
  cases i with
  | exit da flag operand =>
    exact runArm_onRecord k u (fun vp => congrArg Res.ok (State.onRecord_halt k hrun _)) flag operand
  | set da flag operand =>
    exact runArmAdvance_onRecord k u (fun vp => memWrite_onRecord k u _ _) flag operand
  | print da flag operand =>
    exact runArmAdvance_onRecord k u (fun vp => printRange_onRecord k u _ _) flag operand
  | input da flag operand => exact execInput_onRecord k u da flag operand
  | label da flag operand => exact runArmAdvance_onRecord k u (arm := fun _ => .ok u) (fun _ => rfl) flag operand
  | lookBack da flag operand =>
    exact runArmAdvance_onRecord k u
      (fun vp => by rw [State.onRecord_pc, searchBack_onRecord, jump_onRecord]) flag operand
  | lookAhead da flag operand =>
    exact runArmAdvance_onRecord k u
      (fun vp => by rw [State.onRecord_pc, searchAhead_onRecord, jump_onRecord]) flag operand
  | add da flag operand => exact arith_onRecord k u .add da flag operand
  | sub da flag operand => exact arith_onRecord k u .sub da flag operand
  | mul da flag operand => exact arith_onRecord k u .mul da flag operand
  | div da flag operand => exact arith_onRecord k u .div da flag operand
  | mod da flag operand => exact arith_onRecord k u .mod da flag operand

/-- The step of a machine begun with a record is the step of the machine without it, on that record. -/
theorem step_onRecord : step (u.onRecord k) = mapNext (State.onRecord k) (step u) := by
  unfold step
  rw [State.onRecord_run]
  cases hrun : u.run with
  | haltedOk => rfl
  | haltedFault => rfl
  | running =>
    simp only [fetch_onRecord, State.onRecord_cfg]
    cases fetch u with
    | none => exact congrArg Host.Outcome.next (State.onRecord_halt k hrun .ok)
    | some w =>
      dsimp only
      cases decode u.cfg w with
      | reject r => rfl
      | instr i => exact exec_onRecord k hrun i

end OnRecord

/-- A halted machine takes no step, whatever it holds (40_engine.md R118). -/
theorem step_of_not_running {s : State} (h : s.run ≠ .running) : step s = .fault .halted := by
  unfold step noStep
  cases hrun : s.run with
  | running => exact absurd hrun h
  | haltedOk => rfl
  | haltedFault => rfl

/-- A running machine with any output, status and cause is the one without output, on that record. -/
theorem eq_onRecord_of_running {s : State} (hrun : s.run = .running) (k : Record) :
    { s with out := k.out, status := k.status, cause := k.cause } =
      State.onRecord k { s with out := [] } := by
  simp [State.onRecord, hrun]

/-- Settles O16: both machines are the one without output, on their own records (`step_onRecord`). -/
theorem outputStatusCauseAreNeverRead : Obligations.OutputStatusCauseAreNeverRead := by
  intro s o st c
  by_cases hrun : s.run = .running
  · have hs : s = State.onRecord ⟨s.out, s.status, s.cause⟩ { s with out := [] } :=
      eq_onRecord_of_running hrun ⟨s.out, s.status, s.cause⟩
    rw [eq_onRecord_of_running hrun ⟨o, st, c⟩, step_onRecord]
    constructor
    · intro t ht
      rw [hs, step_onRecord, mapNext_eq_next] at ht
      obtain ⟨u, hu, rfl⟩ := ht
      refine ⟨u.onRecord ⟨o, st, c⟩, u.out, mapNext_eq_next.2 ⟨u, hu, rfl⟩, rfl, rfl, rfl, ?_, ?_⟩
      · exact fun hne => (if_neg hne).trans (if_neg hne).symm
      · exact fun hf => (if_pos hf).trans (if_pos hf).symm
    · intro f hf
      rw [hs, step_onRecord, mapNext_eq_fault] at hf
      exact mapNext_eq_fault.2 hf
  · have hhalted : step { s with out := o, status := st, cause := c } = .fault .halted :=
      step_of_not_running hrun
    rw [step_of_not_running hrun, hhalted]
    exact ⟨fun t ht => (nomatch ht), fun f hf => hf⟩

end Sys2Proof.Machine

namespace Sys2Proof.Machine

/-! ### The canonical form of the tape: contents determine the data -/

/-- The first listed address of a canonical tape is its lowest cell that differs from an unlisted one. -/
theorem Memory.head_le_of_read_ne {k : Nat} {b : Byte} {m : Memory} {a : Nat}
    (hw : Memory.wf ((k, b) :: m) = true) (ha : Memory.read ((k, b) :: m) a ≠ unlistedCell a) :
    k ≤ a := by
  obtain ⟨-, hlt, -⟩ := (Memory.wf_cons k b m).1 hw
  refine Nat.le_of_not_lt fun hak => ha (Memory.read_of_lt_all _ _ fun c hc => ?_)
  rcases List.mem_cons.1 hc with rfl | hc
  · exact hak
  · exact hak.trans (hlt c hc)

theorem Memory.read_head (k : Nat) (b : Byte) (m : Memory) : Memory.read ((k, b) :: m) k = b :=
  if_pos rfl

theorem Memory.read_head_ne {k : Nat} {b : Byte} {m : Memory}
    (hw : Memory.wf ((k, b) :: m) = true) : Memory.read ((k, b) :: m) k ≠ unlistedCell k := by
  rw [Memory.read_head]
  exact ((Memory.wf_cons k b m).1 hw).1

/-- The rest of a canonical tape reads as the whole does, but at the first listed address. -/
theorem Memory.read_tail {k : Nat} {b : Byte} {m : Memory}
    (hw : Memory.wf ((k, b) :: m) = true) (a : Nat) :
    m.read a = if a = k then unlistedCell a else Memory.read ((k, b) :: m) a := by
  obtain ⟨-, hlt, -⟩ := (Memory.wf_cons k b m).1 hw
  split
  · next hak => exact Memory.read_of_lt_all m a (hak ▸ hlt)
  · next hak => exact (if_neg (Ne.symm hak)).symm

/-- Settles O19, by induction on the one tape: the other begins with the same entry, since each first
address is the lowest cell that is not zero, and the rests read alike too. -/
theorem canonicalTapesThatReadAlikeAreEqual : Obligations.CanonicalTapesThatReadAlikeAreEqual := by
  intro m
  induction m with
  | nil =>
    rintro (_ | ⟨⟨k, b⟩, m'⟩) - hw' hread
    · rfl
    · exact absurd (hread k).symm (Memory.read_head_ne hw')
  | cons c m ih =>
    obtain ⟨k, b⟩ := c
    rintro (_ | ⟨⟨k', b'⟩, m'⟩) hw hw' hread
    · exact absurd (hread k) (Memory.read_head_ne hw)
    · have hk : k ≤ k' := Memory.head_le_of_read_ne hw (hread k' ▸ Memory.read_head_ne hw')
      have hk' : k' ≤ k := Memory.head_le_of_read_ne hw' (hread k ▸ Memory.read_head_ne hw)
      obtain rfl : k = k' := Nat.le_antisymm hk hk'
      obtain rfl : b = b' := by simpa only [Memory.read_head] using hread k
      have hm : m = m' := by
        refine ih m' ((Memory.wf_cons _ _ _).1 hw).2.2 ((Memory.wf_cons _ _ _).1 hw').2.2 fun a => ?_
        rw [Memory.read_tail hw, Memory.read_tail hw', hread]
      rw [hm]

/-- Writes to two cells of a canonical tape can be made in either order. -/
theorem Memory.write_comm {m : Memory} (hw : m.wf = true) {a b : Nat} (hab : a ≠ b) (v w : Byte) :
    (m.write a v).write b w = (m.write b w).write a v := by
  have hwa := Memory.write_wf m a v hw
  have hwb := Memory.write_wf m b w hw
  refine canonicalTapesThatReadAlikeAreEqual _ _ (Memory.write_wf _ b w hwa)
    (Memory.write_wf _ a v hwb) fun c => ?_
  by_cases hcb : c = b
  · rw [hcb, Memory.read_write_self _ _ _ hwa, Memory.read_write_other _ _ _ _ hab.symm,
      Memory.read_write_self _ _ _ hw]
  · rw [Memory.read_write_other _ _ _ _ hcb]
    by_cases hca : c = a
    · rw [hca, Memory.read_write_self _ _ _ hw, Memory.read_write_self _ _ _ hwb]
    · simp only [Memory.read_write_other _ _ _ _ hca, Memory.read_write_other _ _ _ _ hcb]

/-! ### Which opcodes write what -/

namespace ExecNext
variable {i : Instr} {s t : State}

/-- What is in the output stays there (10_state.md R32). -/
theorem out_prefix (h : ExecNext i s t) : s.out <+: t.out := by
  cases h with
  | print _ _ bs => exact List.prefix_append s.out bs
  | _ => exact List.prefix_refl s.out

theorem out_eq (h : ExecNext i s t) (hop : i.opcode ≠ .print) : t.out = s.out := by
  cases h with
  | print hp => exact absurd hp hop
  | _ => rfl

theorem consumed_eq (h : ExecNext i s t) (hop : i.opcode ≠ .input) : t.consumed = s.consumed := by
  cases h with
  | inputDone hi => exact absurd hi hop
  | inputFault hi => exact absurd hi hop
  | _ => rfl

/-- Opcodes that neither write their cell nor input a line leave the tape (20_memory.md R57). -/
theorem tape_eq (h : ExecNext i s t) (hwrite : writesCell i.opcode = false)
    (hinput : i.opcode ≠ .input) : t.tape = s.tape := by
  cases h with
  | write hop => exact absurd (hop.symm.trans hwrite) (by decide)
  | inputDone hop => exact absurd hop hinput
  | _ => rfl

/-- Any opcode but Input leaves every cell but the one its direct address names. -/
theorem read_other (h : ExecNext i s t) (hop : i.opcode ≠ .input) {a : Nat}
    (ha : a ≠ i.da.toNat) : t.tape.read a = s.tape.read a := by
  cases h with
  | write _ _ _ v => exact Memory.read_write_other s.tape i.da.toNat a v ha
  | inputDone hi => exact absurd hi hop
  | _ => rfl

end ExecNext

/-- Settles O17, from what an instruction can do (`exec_next`), one effect at a time. -/
theorem onlyTheirOpcodesHaveTheEffect : Obligations.OnlyTheirOpcodesHaveTheEffect := by
  intro i s t h
  have hnext := exec_next h
  refine ⟨hnext.out_prefix, hnext.out_eq, hnext.consumed_eq, fun hmem => ?_⟩
  have hop : ∀ op ∈ [Opcode.exit, .print, .label, .lookBack, .lookAhead],
      writesCell op = false ∧ op ≠ .input := by decide
  obtain ⟨hwrite, hinput⟩ := hop i.opcode hmem
  have htape := hnext.tape_eq hwrite hinput
  exact ⟨htape, fun a => by rw [htape]⟩

/-! ### The range check of the direct address -/

section CellOutOfRange
variable {da : Byte} {flag : Digit} {operand : Byte} {s : State}

/-- An arm that raises a fault on the resolved operand ends the instruction in that fault. -/
theorem runArmAdvance_of_raiseKind {arm : ValuePart → Res State} {k : FaultKind}
    (hr : OperandReadable s flag operand) (harm : ∀ vp, arm vp = raiseKind k) :
    runArmAdvance s flag operand arm = .next (faultState s k none) := by
  rw [runArmAdvance_of_readable hr, harm]
  rfl

theorem execSet_of_cell_out_of_range (hr : OperandReadable s flag operand)
    (hd : ¬ CellValid s da) :
    execSet da flag operand s = .next (faultState s (.tapeRange da.toNat) none) :=
  runArmAdvance_of_raiseKind hr fun _ => memWrite_of_ge hd

/-- The start check comes before any cell is read (43_io.md R150). -/
theorem execPrint_of_cell_out_of_range (hr : OperandReadable s flag operand)
    (hd : ¬ CellValid s da) :
    execPrint da flag operand s = .next (faultState s (.tapeRange da.toNat) none) :=
  runArmAdvance_of_raiseKind hr fun _ => by
    rw [printRange, checkStart_of_ge hd]
    rfl

/-- The start check comes before a line is requested (43_io.md R150, R160). -/
theorem execInput_of_cell_out_of_range (hr : OperandReadable s flag operand)
    (hd : ¬ CellValid s da) :
    execInput da flag operand s = .next (faultState s (.tapeRange da.toNat) none) := by
  rw [execInput, resolve_of_readable hr, Res.bind_ok, checkStart_of_ge hd]
  rfl

end CellOutOfRange

/-- Settles O27: each opcode that uses its direct address checks it first after resolution. -/
theorem cellOutOfRangeFaults : Obligations.CellOutOfRangeFaults := by
  intro i s hr hda hop
  have hd : ¬ CellValid s i.da := Nat.not_lt.2 hda
  cases i with
  | set da flag operand => exact execSet_of_cell_out_of_range hr hd
  | print da flag operand => exact execPrint_of_cell_out_of_range hr hd
  | input da flag operand => exact execInput_of_cell_out_of_range hr hd
  | add da flag operand => exact arith_of_cell_out_of_range hr hd
  | sub da flag operand => exact arith_of_cell_out_of_range hr hd
  | mul da flag operand => exact arith_of_cell_out_of_range hr hd
  | div da flag operand => exact arith_of_cell_out_of_range hr hd
  | mod da flag operand => exact arith_of_cell_out_of_range hr hd
  | exit | label | lookBack | lookAhead => simp [Instr.opcode] at hop

/-! ### Cells from 256 up

The idea: setting such a cell commutes with every instruction but Input, because direct addresses and
operands are bytes, so the instruction neither reads nor writes the cell (20_memory.md R51). -/

/-- The machine with one cell of its tape set from outside. -/
def State.setCell (a : Nat) (v : Byte) (s : State) : State := s.withTape (s.tape.write a v)

section SetCell
variable {a : Nat} (v : Byte) (s : State)

@[simp] theorem State.setCell_cfg : (s.setCell a v).cfg = s.cfg := rfl
@[simp] theorem State.setCell_pc : (s.setCell a v).pc = s.pc := rfl
@[simp] theorem State.setCell_progLength : (s.setCell a v).progLength = s.progLength := rfl
@[simp] theorem progRead_setCell (i : Nat) : progRead (s.setCell a v) i = progRead s i := rfl
@[simp] theorem checkStart_setCell (b : Nat) : checkStart (s.setCell a v) b = checkStart s b := rfl
@[simp] theorem State.setCell_advance : (s.setCell a v).advance = s.advance.setCell a v := rfl
@[simp] theorem State.setCell_emitAll (bs : List Byte) :
    (s.setCell a v).emitAll bs = (s.emitAll bs).setCell a v := rfl

theorem memRead_setCell {b : Nat} (hb : b ≠ a) : memRead (s.setCell a v) b = memRead s b := by
  simp only [memRead, State.setCell, State.withTape_cfg, State.withTape_tape,
    Memory.read_write_other _ _ _ _ hb]

theorem memWrite_setCell (hw : s.tape.wf = true) {b : Nat} (hb : b ≠ a) (w : Byte) :
    memWrite (s.setCell a v) b w = (memWrite s b w).map (State.setCell a v) := by
  by_cases hlt : b < s.cfg.tapeSize
  · rw [memWrite_of_lt hlt, memWrite_of_lt (by exact hlt)]
    exact congrArg (fun m => Res.ok (s.withTape m)) (Memory.write_comm hw hb.symm v w)
  · rw [memWrite_of_ge hlt, memWrite_of_ge (by exact hlt)]
    rfl

theorem jump_setCell (x : Res Nat) :
    x.map (s.setCell a v).jumpTo = (x.map s.jumpTo).map (State.setCell a v) := by
  cases x <;> rfl

theorem settle_setCell (x : Res State) :
    settle (s.setCell a v) (x.map (State.setCell a v)) =
      mapNext (State.setCell a v) (settle s x) := by
  cases x <;> rfl

/-! What an instruction reads: the cells its byte-wide fields name, which are below 256. -/

/-- An address a byte names is not one from 256 up. -/
theorem byte_ne_high (ha : 256 ≤ a) (b : Byte) : b.toNat ≠ a := by omega

/-- The address of a Value Part is a byte, or 0 (30_encoding.md R86). -/
theorem address_lt_of_resolve {s : State} {flag : Digit} {operand : Byte} {vp : ValuePart}
    (h : resolve s flag operand = .ok vp) : vp.address < 256 := by
  unfold resolve at h
  split at h
  · obtain ⟨-, -, rfl⟩ := Res.map_eq_ok.1 h
    exact operand.isLt
  · cases h
    exact Nat.zero_lt_succ 255

variable (ha : 256 ≤ a)
include ha

theorem resolve_setCell (flag : Digit) (operand : Byte) :
    resolve (s.setCell a v) flag operand = resolve s flag operand := by
  simp only [resolve, State.setCell_cfg, memRead_setCell v s (byte_ne_high ha operand)]

theorem labelMatches_setCell (i : Nat) (u : Byte) :
    labelMatches (s.setCell a v) i u = labelMatches s i u := by
  simp only [labelMatches, inspectWord, progRead_setCell, State.setCell_cfg,
    resolve_setCell v s ha]

theorem searchBack_setCell (u : Byte) (i : Nat) :
    searchBack (s.setCell a v) u i = searchBack s u i := by
  induction i with
  | zero => rfl
  | succ i ih => simp only [searchBack, labelMatches_setCell v s ha, ih]

theorem searchAheadFrom_setCell (u : Byte) (i n : Nat) :
    searchAheadFrom (s.setCell a v) u i n = searchAheadFrom s u i n := by
  induction n generalizing i with
  | zero => rfl
  | succ n ih => simp only [searchAheadFrom, labelMatches_setCell v s ha, ih]

theorem searchAhead_setCell (u : Byte) (p : Nat) :
    searchAhead (s.setCell a v) u p = searchAhead s u p :=
  searchAheadFrom_setCell v s ha u p _

theorem readCells_setCell {b n : Nat} (h : b + n ≤ 256) :
    readCells (s.setCell a v) b n = readCells s b n := by
  induction n generalizing b with
  | zero => rfl
  | succ n ih =>
    rw [readCells, readCells, memRead_setCell v s (by omega), ih (by omega)]

theorem printRange_setCell (da : Byte) {last : Nat} (hlast : last < 256) :
    printRange (s.setCell a v) da.toNat last =
      (printRange s da.toNat last).map (State.setCell a v) := by
  have hcells : readCells (s.setCell a v) da.toNat (last + 1 - da.toNat) =
      readCells s da.toNat (last + 1 - da.toNat) := readCells_setCell v s ha (by omega)
  simp only [printRange, checkStart_setCell, hcells, State.setCell_cfg, State.setCell_emitAll,
    Res.map_bind, Res.map_map]

/-! Whole instructions. -/

/-- An arm that commutes with setting the cell makes an instruction that does. -/
theorem runArm_setCell {arm arm' : ValuePart → Res State} (flag : Digit) (operand : Byte)
    (harm : ∀ vp, vp.address < 256 → arm' vp = (arm vp).map (State.setCell a v)) :
    runArm (s.setCell a v) flag operand arm' =
      mapNext (State.setCell a v) (runArm s flag operand arm) := by
  rw [runArm, runArm, resolve_setCell v s ha, ← settle_setCell]
  cases h : resolve s flag operand with
  | raise r => rfl
  | ok vp => exact congrArg _ (harm vp (address_lt_of_resolve h))

theorem runArmAdvance_setCell {arm arm' : ValuePart → Res State} (flag : Digit) (operand : Byte)
    (harm : ∀ vp, vp.address < 256 → arm' vp = (arm vp).map (State.setCell a v)) :
    runArmAdvance (s.setCell a v) flag operand arm' =
      mapNext (State.setCell a v) (runArmAdvance s flag operand arm) :=
  runArm_setCell v s ha flag operand fun vp hvp => by
    simp only [harm vp hvp, Res.map_map, State.setCell_advance]

theorem arith_setCell (hw : s.tape.wf = true) (op : ArithOp) (da : Byte) (flag : Digit)
    (operand : Byte) :
    arith op da flag operand (s.setCell a v) =
      mapNext (State.setCell a v) (arith op da flag operand s) :=
  have hda := byte_ne_high ha da
  runArmAdvance_setCell v s ha flag operand fun vp _ => by
    simp only [memRead_setCell v s hda, memWrite_setCell v s hw hda, Res.map_bind]

/-- An instruction other than Input does the same whatever a cell from 256 up holds, and leaves it. -/
theorem exec_setCell (hw : s.tape.wf = true) {i : Instr} (hop : i.opcode ≠ .input) :
    exec i (s.setCell a v) = mapNext (State.setCell a v) (exec i s) := by
  cases i with
  | exit da flag operand => exact runArm_setCell v s ha flag operand fun _ _ => rfl
  | set da flag operand =>
    exact runArmAdvance_setCell v s ha flag operand fun vp _ =>
      memWrite_setCell v s hw (byte_ne_high ha da) vp.value
  | print da flag operand =>
    exact runArmAdvance_setCell v s ha flag operand fun _ hvp => printRange_setCell v s ha da hvp
  | input da flag operand => exact absurd rfl hop
  | label da flag operand =>
    exact runArmAdvance_setCell v s ha (arm := fun _ => .ok s) flag operand fun _ _ => rfl
  | lookBack da flag operand =>
    exact runArmAdvance_setCell v s ha flag operand fun vp _ => by
      rw [State.setCell_pc, searchBack_setCell v s ha, jump_setCell]
  | lookAhead da flag operand =>
    exact runArmAdvance_setCell v s ha flag operand fun vp _ => by
      rw [State.setCell_pc, searchAhead_setCell v s ha, jump_setCell]
  | add da flag operand => exact arith_setCell v s ha hw .add da flag operand
  | sub da flag operand => exact arith_setCell v s ha hw .sub da flag operand
  | mul da flag operand => exact arith_setCell v s ha hw .mul da flag operand
  | div da flag operand => exact arith_setCell v s ha hw .div da flag operand
  | mod da flag operand => exact arith_setCell v s ha hw .mod da flag operand

end SetCell

/-- Settles O18: the cell is not the one a direct address names (`ExecNext.read_other`), and setting it
before the instruction is setting it after (`exec_setCell`). -/
theorem highCellsBelongToInput : Obligations.HighCellsBelongToInput := by
  intro i s a v hw hop ha
  refine ⟨fun t ht => (exec_next ht).read_other hop (byte_ne_high ha i.da).symm, fun t ht => ?_⟩
  have ht' : exec i (s.setCell a v) = .next (t.setCell a v) := by
    rw [exec_setCell v s ha hw hop, ht]
    rfl
  exact ⟨t.setCell a v, ht', rfl, rfl, rfl, rfl, rfl, rfl,
    fun b hb => Memory.read_write_other t.tape a b v hb⟩

end Sys2Proof.Machine

namespace Sys2Proof

/-! ### The decoder and the encoder are inverse -/

/-- The decoder answers an instruction exactly when the word's four fields are that instruction's
(30_encoding.md R82, R84). -/
theorem decode_word_eq_instr {c : Config} {w : Packed} {i : Instr} :
    decode c (.word w) = .instr i ↔ c.opMap.opcode? (opcodeField w) = some i.opcode ∧
      daField w = i.da ∧ flagField w = i.flag ∧ operandField w = i.operand := by
  constructor
  · intro h
    obtain ⟨op, hop, hdec⟩ | ⟨-, hrej⟩ := decode_word c w
    · obtain rfl := Decoded.instr.inj (hdec.symm.trans h)
      simpa using hop
    · exact nomatch hrej.symm.trans h
  · rintro ⟨hop, hda, hflag, hoperand⟩
    simp only [decode, hop, hda, hflag, hoperand, Instr.ofFields_self]

/-- The word of an instruction holds its opcode digit and its three other fields (R81, R82). -/
theorem fields_of_encode (i : Instr) : Laws.EncodedFields.Statement i :=
  fun _ => fields_of_layout _ _ _ _

/-- Settles O20: the word holds the instruction's fields, and its digit selects no other opcode. -/
theorem decodeOfEncodeIsTheInstruction : Obligations.DecodeOfEncodeIsTheInstruction := by
  intro c i hwf
  obtain ⟨hop, hda, hflag, hoperand⟩ := fields_of_encode i c
  have hdigit : c.opMap.opcode? (c.opMap.digit i.opcode) = some i.opcode :=
    OpMap.opcode?_digit _ _ ((Instr.wf_iff c i).1 hwf)
  exact decode_word_eq_instr.2 ⟨hop ▸ hdigit, hda, hflag, hoperand⟩

/-- The four fields, laid out as R81 says, are the whole word: no bit lies outside them. -/
theorem layout_of_fields (w : Packed) :
    (opcodeField w ++ daField w ++ flagField w ++ operandField w : Packed) = w := by
  have h12 : opcodeField w ++ daField w = w.extractLsb' 12 12 :=
    BitVec.extractLsb'_append_extractLsb'_eq_extractLsb' rfl
  have h8 : w.extractLsb' 12 12 ++ flagField w = w.extractLsb' 8 16 :=
    BitVec.extractLsb'_append_extractLsb'_eq_extractLsb' rfl
  have h0 : w.extractLsb' 8 16 ++ operandField w = w.extractLsb' 0 24 :=
    BitVec.extractLsb'_append_extractLsb'_eq_extractLsb' rfl
  rw [h12, h8, h0, BitVec.extractLsb'_eq_self]

/-- An `OPMAP` is injective exactly when no two opcodes share a digit (00_scope.md R5). -/
theorem OpMap.wf_iff (m : OpMap) : m.wf = true ↔ Function.Injective m.digit := by
  have hnodup : Opcode.all.Nodup := by decide
  rw [OpMap.wf, decide_eq_true_eq, List.nodup_map_iff_inj_on hnodup]
  exact ⟨fun h a b => h a a.mem_all b b.mem_all, fun h a _ b _ hab => h hab⟩

/-- Under an injective `OPMAP` every instruction is well formed (30_encoding.md R94). -/
theorem Instr.wf_of_opMap_wf {c : Config} (h : c.opMap.wf = true) (i : Instr) : i.wf c = true :=
  (Instr.wf_iff c i).2 fun _ hne heq => hne ((OpMap.wf_iff c.opMap).1 h heq)

/-- Settles O21: the word is its four fields (`layout_of_fields`), which the instruction keeps. -/
theorem encodeOfDecodeIsTheWord : Obligations.EncodeOfDecodeIsTheWord := by
  intro c w i h
  obtain ⟨hop, hda, hflag, hoperand⟩ := decode_word_eq_instr.1 h
  refine ⟨?_, fun hwf => Instr.wf_of_opMap_wf hwf i⟩
  rw [encode, OpMap.digit_of_opcode? hop, ← hda, ← hflag, ← hoperand, layout_of_fields]

/-! ### The digits of a word -/

/-- Laying a bit vector to the left of one of `m` bits multiplies it by `2 ^ m`. -/
theorem append_toNat {n m : Nat} (a : BitVec n) (b : BitVec m) :
    (a ++ b).toNat = a.toNat * 2 ^ m + b.toNat := by
  rw [BitVec.toNat_append, ← Nat.shiftLeft_add_eq_or_of_lt b.isLt, Nat.shiftLeft_eq]

/-- A two-digit field has its left digit as the more significant one (30_encoding.md R85). -/
theorem hex2_toNat (a b : Digit) : (hex2 a b).toNat = 16 * a.toNat + b.toNat := by
  rw [hex2, append_toNat]
  omega

/-- The packed word is the number its six digits spell, `d0` leftmost (30_encoding.md R83). -/
theorem packDigits_toNat (d0 d1 d2 d3 d4 d5 : Digit) :
    (packDigits d0 d1 d2 d3 d4 d5).toNat =
      Nat.ofDigits 16 [d5.toNat, d4.toNat, d3.toNat, d2.toNat, d1.toNat, d0.toNat] := by
  simp only [packDigits, append_toNat, Nat.ofDigits_cons, Nat.ofDigits_nil]
  omega

/-- Six digits are the fields of the format: two of the fields take two digits (R82). -/
theorem packDigits_eq_layout (d0 d1 d2 d3 d4 d5 : Digit) :
    packDigits d0 d1 d2 d3 d4 d5 = d0 ++ hex2 d1 d2 ++ d3 ++ hex2 d4 d5 := by
  apply BitVec.eq_of_toNat_eq
  simp only [packDigits, append_toNat, hex2_toNat]
  omega

/-- Settles O22: the fields the decoder reads are the digits laid out by `packDigits`. -/
theorem fieldsAreTheDigitsOfTheWord : Obligations.FieldsAreTheDigitsOfTheWord := by
  intro c d0 d1 d2 d3 d4 d5 i h
  rw [packDigits_eq_layout, decode_word_eq_instr] at h
  obtain ⟨hop, hda, hflag, hoperand⟩ := h
  obtain ⟨hop', hda', hflag', hoperand'⟩ := fields_of_layout d0 (hex2 d1 d2) d3 (hex2 d4 d5)
  refine ⟨?_, ?_, ?_, ?_⟩
  · exact (OpMap.digit_of_opcode? hop).trans hop'
  · rw [← hda, hda', hex2_toNat]
  · exact hflag.symm.trans hflag'
  · rw [← hoperand, hoperand', hex2_toNat]

/-! ### What the decoder rejects -/

/-- A packed word is rejected exactly when its digit names no opcode (30_encoding.md R91). -/
theorem decode_word_rejects_iff (c : Config) (w : Packed) :
    (∃ r, decode c (.word w) = .reject r) ↔ ∀ op, c.opMap.digit op ≠ opcodeField w := by
  obtain ⟨op, hop, hdec⟩ | ⟨hne, hrej⟩ := decode_word c w
  · have hdigit := OpMap.digit_of_opcode? hop
    simp only [hdec, reduceCtorEq, exists_false, false_iff]
    exact fun h => h op hdigit
  · exact iff_of_true ⟨_, hrej⟩ hne

/-- The digits of no opcode under the default `OPMAP`, twelve digits being taken (R88, D1). -/
theorem OpMap.default_opcode?_eq_none :
    ∀ d : Digit, OpMap.default.opcode? d = none ↔ 12 ≤ d.toNat := by decide

/-- The opcode field is the most significant of the six digits (R82). -/
theorem opcodeField_toNat (w : Packed) : (opcodeField w).toNat = w.toNat / 2 ^ 20 := by
  have hw := w.isLt
  rw [opcodeField, BitVec.extractLsb'_toNat, Nat.shiftRight_eq_div_pow]
  omega

/-- Settles O23: the words whose digit is no opcode's; from 0xC up there is none by default. -/
theorem decoderRejectsExactlyIllegalWords : Obligations.DecoderRejectsExactlyIllegalWords := by
  refine ⟨fun _ => rfl, decode_word_rejects_iff, fun w => ?_⟩
  have hdigit : (∀ op, OpMap.default.digit op ≠ opcodeField w) ↔ 12 ≤ (opcodeField w).toNat :=
    OpMap.opcode?_eq_none.symm.trans (OpMap.default_opcode?_eq_none _)
  rw [decode_word_rejects_iff]
  exact hdigit.trans (by rw [opcodeField_toNat]; omega)

/-- Settles O24, by running the decoder on each of the fourteen words. -/
theorem writtenOutWordsDecode : Obligations.WrittenOutWordsDecode := by
  unfold Obligations.WrittenOutWordsDecode
  decide

end Sys2Proof

namespace Sys2Proof.Machine

/-! ### Digits an instruction ignores

The flag digit reaches an instruction only through the resolver, so two flags that resolve an operand
alike are one to every instruction (30_encoding.md R86, R87). -/

/-- In immediate mode the operand is the value, whatever the tape holds (R86). -/
theorem resolve_of_immediate {s : State} {flag : Digit} (h : flag ≠ s.cfg.indMark)
    (operand : Byte) : resolve s flag operand = .ok { value := operand, address := 0 } := if_neg h

section SameResolution
variable {s : State} {f f' : Digit} {operand : Byte}
  (h : resolve s f operand = resolve s f' operand)
include h

theorem runArm_congr_resolve (arm : ValuePart → Res State) :
    runArm s f operand arm = runArm s f' operand arm := by
  rw [runArm, runArm, h]

theorem runArmAdvance_congr_resolve (arm : ValuePart → Res State) :
    runArmAdvance s f operand arm = runArmAdvance s f' operand arm :=
  runArm_congr_resolve h _

theorem execInput_congr_resolve (da : Byte) :
    execInput da f operand s = execInput da f' operand s := by
  rw [execInput, execInput, h]

theorem exec_congr_resolve (op : Opcode) (da : Byte) :
    exec (.ofFields op da f operand) s = exec (.ofFields op da f' operand) s := by
  cases op with
  | exit => exact runArm_congr_resolve h _
  | input => exact execInput_congr_resolve h da
  | set | print | label | lookBack | lookAhead | add | sub | mul | div | mod =>
    exact runArmAdvance_congr_resolve h _

end SameResolution

/-- The control opcodes and Exit have no use for their direct address (R89, D27). -/
theorem exec_ofFields_da_ignored {op : Opcode}
    (hop : op ∈ [Opcode.exit, .label, .lookBack, .lookAhead]) (da da' : Byte) (f : Digit)
    (operand : Byte) (s : State) :
    exec (.ofFields op da f operand) s = exec (.ofFields op da' f operand) s := by
  cases op with
  | exit | label | lookBack | lookAhead => rfl
  | set | print | input | add | sub | mul | div | mod => simp at hop

/-- Settles O25: two immediate flags resolve an operand alike (`exec_congr_resolve`). -/
theorem ignoredDigitsDoNotMatter : Obligations.IgnoredDigitsDoNotMatter := by
  refine ⟨fun op da f f' operand s hf hf' => exec_congr_resolve ?_ op da,
    fun op da da' f operand s hop => exec_ofFields_da_ignored hop da da' f operand s⟩
  rw [resolve_of_immediate hf, resolve_of_immediate hf']

end Sys2Proof.Machine

namespace Sys2Proof

/-! ### Malformed words -/

/-- Six digits in range are their packed word (30_encoding.md R80, R83). -/
theorem ProgWord.ofDigits_of_lt {d0 d1 d2 d3 d4 d5 : Nat}
    (h : ∀ d ∈ [d0, d1, d2, d3, d4, d5], d < 16) :
    ProgWord.ofDigits [d0, d1, d2, d3, d4, d5] =
      .word (packDigits (.ofNat 4 d0) (.ofNat 4 d1) (.ofNat 4 d2) (.ofNat 4 d3) (.ofNat 4 d4)
        (.ofNat 4 d5)) :=
  if_pos (by simpa [and_assoc] using h)

/-- Six digits in range spell their packed word in hexadecimal, leftmost digit first (R83). -/
theorem ProgWord.ofDigits_spells {ds : List Nat} (hlen : ds.length = 6) (h : ∀ d ∈ ds, d < 16) :
    ∃ w : Packed, ProgWord.ofDigits ds = .word w ∧ w.toNat = Nat.ofDigits 16 ds.reverse := by
  match ds, hlen with
  | [d0, d1, d2, d3, d4, d5], _ =>
    refine ⟨_, ProgWord.ofDigits_of_lt h, ?_⟩
    have hmod : ∀ d ∈ [d0, d1, d2, d3, d4, d5], (BitVec.ofNat 4 d).toNat = d :=
      fun d hd => Nat.mod_eq_of_lt (h d hd)
    rw [packDigits_toNat, hmod d0, hmod d1, hmod d2, hmod d3, hmod d4, hmod d5] <;> simp

/-- Any other list of digits is a malformed word (R80, R93, D28). -/
theorem ProgWord.ofDigits_malformed {ds : List Nat}
    (h : ds.length ≠ 6 ∨ ∃ d ∈ ds, 16 ≤ d) : ProgWord.ofDigits ds = .malformed := by
  unfold ProgWord.ofDigits
  split
  · refine if_neg fun hlt => ?_
    obtain hlen | ⟨d, hd, hge⟩ := h
    · exact hlen rfl
    · simp at hlt hd
      omega
  · rfl

end Sys2Proof

namespace Sys2Proof.Machine

/-- A step that fetches a word the decoder rejects takes the DecodeFault (40_engine.md R113). -/
theorem step_of_reject {s : State} {w : ProgWord} {r : DecodeReject} (hrun : s.run = .running)
    (hw : fetch s = some w) (hd : decode s.cfg w = .reject r) :
    step s = .next (faultState s .decodeFault none) := by
  simp only [step, hrun, hw, hd, undecodable, takeFault_eq_faultState]

/-- Settles O59: the digits as `ProgWord.ofDigits` reads them, and the malformed word a number of the
wrong length becomes, which the next step fetches. -/
theorem wrongLengthWordIsMalformed : Obligations.WrongLengthWordIsMalformed := by
  refine ⟨fun _ => ProgWord.ofDigits_spells, fun _ => ProgWord.ofDigits_malformed,
    fun s nbits w h => ?_⟩
  have hfetch := fetch_withFetchWord s nbits w
  rw [ProgWord.ofTableWord_of_wrong_length h] at hfetch
  exact step_of_reject rfl hfetch rfl

end Sys2Proof.Machine

namespace Sys2Proof.Machine

/-! ### The dispatch cycle: what a step of a running machine runs -/

/-- A step on a word that decodes is `exec` of its instruction and nothing more (40_engine.md R113,
R115). -/
theorem step_of_instr {s : State} {w : ProgWord} {i : Instr} (hrun : s.run = .running)
    (hw : fetch s = some w) (hd : decode s.cfg w = .instr i) : step s = exec i s := by
  simp only [step, hrun, hw, hd]

/-- Where there is no word to fetch, the step is the end-of-program check (R111). -/
theorem step_of_end {s : State} (hrun : s.run = .running) (hend : s.progLength ≤ s.pc) :
    step s = .next (s.halt .ok) := by
  have hw : fetch s = none := List.getElem?_eq_none hend
  simp only [step, hrun, hw, endOfProgram]

/-- Settles O7: the instruction's own word decodes to it (O20). -/
theorem stepRunsEncodedInstruction : Obligations.StepRunsEncodedInstruction :=
  fun s i hrun hwf hw => step_of_instr hrun hw (decodeOfEncodeIsTheInstruction s.cfg i hwf)

/-- Settles O8: the fetch reads the placed word, and placing it moves no other. -/
theorem placedWordIsFetched : Obligations.PlacedWordIsFetched :=
  fun s nbits w _ hd => ⟨step_of_instr rfl (fetch_withFetchWord s nbits w) hd,
    fun _ hj hne => placeWord_other _ hj hne⟩

/-- Settles O6: the fetch reads the word at `pc`. -/
theorem stepRunsDecodedInstruction : Obligations.StepRunsDecodedInstruction :=
  fun _ _ _ => step_of_instr

/-- Settles O9: either way the decoder rejects the word, and the fault's class is RainbowException. -/
theorem undecodableWordFaults : Obligations.UndecodableWordFaults := by
  intro s w hrun hw hword
  have hreject : ∃ r, decode s.cfg w = .reject r := by
    rcases hword with rfl | ⟨b, rfl, hdigit⟩
    · exact ⟨.malformedWord, rfl⟩
    · exact (decode_word_rejects_iff s.cfg b).2 hdigit
  obtain ⟨r, hd⟩ := hreject
  exact step_of_reject hrun hw hd

/-- Settles O10: in the empty program every `pc` is past the last word. -/
theorem endOfProgramHaltsOk : Obligations.EndOfProgramHaltsOk :=
  ⟨fun _ => step_of_end, fun _ _ => step_of_end rfl (Nat.zero_le _)⟩

/-! ### The end of a run -/

/-- Settles O11: a step begins only in a running state (`step_next`), and construction gives one. -/
theorem haltedMachineTakesNoStep : Obligations.HaltedMachineTakesNoStep := by
  refine ⟨fun s hhalted t ht => ?_, fun _ _ _ => rfl⟩
  have hrun : s.run = .running := (step_next ht).1
  simp [hrun] at hhalted

namespace ExecNext
variable {i : Instr} {s t : State}

/-- An instruction after which the run goes on leaves the status (10_state.md R25). -/
theorem status_eq (h : ExecNext i s t) (hrun : t.run = .running) : t.status = s.status := by
  cases h with
  | fault | exit | inputFault => exact nomatch hrun
  | _ => rfl

/-- Only an instruction that faults writes the cause (10_state.md R26). -/
theorem cause_eq (h : ExecNext i s t) (hfault : t.run ≠ .haltedFault) : t.cause = s.cause := by
  cases h with
  | fault | inputFault => exact absurd rfl hfault
  | _ => rfl

end ExecNext

theorem step_status_eq {s t : State} (h : step s = .next t) (hrun : t.run = .running) :
    t.status = s.status := by
  obtain ⟨-, ⟨-, rfl⟩ | ⟨w, -, ⟨-, rfl⟩ | ⟨i, -, hi⟩⟩⟩ := step_next h
  · exact nomatch hrun
  · exact nomatch hrun
  · exact hi.status_eq hrun

theorem step_cause_eq {s t : State} (h : step s = .next t) (hfault : t.run ≠ .haltedFault) :
    t.cause = s.cause := by
  obtain ⟨-, ⟨-, rfl⟩ | ⟨w, -, ⟨-, rfl⟩ | ⟨i, -, hi⟩⟩⟩ := step_next h
  · rfl
  · exact absurd rfl hfault
  · exact hi.cause_eq hfault

/-- Settles O13: the status is written only at the end of a run and the cause only at a fault, and a
step begins only in a running state (`step_next`). -/
theorem statusIsWrittenOnce : Obligations.StatusIsWrittenOnce := by
  intro s t ht
  refine ⟨(step_next ht).1, fun hrun => ⟨step_status_eq ht hrun, step_cause_eq ht ?_⟩,
    fun hok => step_cause_eq ht ?_, fun hended u hu => hended (step_next hu).1⟩
  · simp [hrun]
  · simp [hok]

/-! ### The range check of an indirect operand -/

/-- Resolution comes before the start check and the request for a line (43_io.md R160). -/
theorem execInput_of_unreadable {da : Byte} {flag : Digit} {operand : Byte} {s : State}
    (h : ¬ OperandReadable s flag operand) :
    execInput da flag operand s = .next (faultState s (.tapeRange operand.toNat) none) := by
  rw [execInput, resolve_of_unreadable h]
  rfl

/-- Every instruction resolves its operand before its arm runs (40_engine.md R114). -/
theorem exec_of_unreadable {i : Instr} {s : State} (h : ¬ OperandReadable s i.flag i.operand) :
    exec i s = .next (faultState s (.tapeRange i.operand.toNat) none) := by
  cases i with
  | exit => exact runArm_of_unreadable h
  | input => exact execInput_of_unreadable h
  | set | print | label | lookBack | lookAhead | add | sub | mul | div | mod =>
    exact runArmAdvance_of_unreadable h

/-- Settles O26: such an operand does not resolve. -/
theorem unreadableOperandFaultsEveryOpcode : Obligations.UnreadableOperandFaultsEveryOpcode :=
  fun _ _ hflag hrange => exec_of_unreadable fun hr => Nat.not_lt.2 hrange (hr hflag)

end Sys2Proof.Machine

namespace Sys2Proof.Machine

/-! ### Exit and the status codes -/

/-- Exit on a readable operand halts on the resolved value (41_exit.md R130). -/
theorem exec_exit_of_readable {da : Byte} {flag : Digit} {operand : Byte} {s : State}
    (h : OperandReadable s flag operand) :
    exec (.exit da flag operand) s =
      .next (s.halt (statusOf s.cfg.statusCode (operandValue s flag operand))) := by
  rw [exec, execExit, runArm_of_readable h, settle_ok]

/-- Settles O38: halting writes `run` and `status` alone, and Exit has no advance after it. -/
theorem exitEndsTheRun : Obligations.ExitEndsTheRun :=
  fun _ _ _ _ hread => exec_exit_of_readable hread

/-- The five exit statuses, in the order in which `StatusCodes.wf` lists their codes. -/
def exitStatuses : List ExitStatus :=
  [.ok, .programException, .rainbowException, .internalException, .unknown]

theorem mem_exitStatuses (st : ExitStatus) : st ∈ exitStatuses := by cases st <;> decide

/-- A `STATUS_CODE` is in its range exactly when Ok has the code 0 and no two statuses share a code
(00_scope.md R5). -/
theorem statusCodes_wf_iff (k : StatusCodes) :
    k.wf = true ↔ k.ok = 0 ∧ Function.Injective (statusCodeOf k) := by
  have hnodup : (exitStatuses.map (statusCodeOf k)).Nodup ↔ Function.Injective (statusCodeOf k) := by
    rw [List.nodup_map_iff_inj_on (by decide)]
    exact ⟨fun h a b => h a (mem_exitStatuses a) b (mem_exitStatuses b), fun h _ _ _ _ hab => h hab⟩
  rw [StatusCodes.wf, Bool.and_eq_true, decide_eq_true_eq, decide_eq_true_eq, ← hnodup]
  rfl

/-- The status of a value has that value as its code, or it is Unknown and the value is the code of
no other status (41_exit.md R131). -/
theorem statusOf_cases (k : StatusCodes) (v : Byte) :
    statusCodeOf k (statusOf k v) = v ∨
      (statusOf k v = .unknown ∧ ∀ st, statusCodeOf k st = v → st = .unknown) := by
  unfold statusOf
  split_ifs with hok hprogram hrainbow hinternal
  · exact .inl hok.symm
  · exact .inl hprogram.symm
  · exact .inl hrainbow.symm
  · exact .inl hinternal.symm
  · refine .inr ⟨rfl, fun st hst => ?_⟩
    cases st with
    | ok => exact absurd hst.symm hok
    | programException => exact absurd hst.symm hprogram
    | rainbowException => exact absurd hst.symm hrainbow
    | internalException => exact absurd hst.symm hinternal
    | unknown => rfl

/-- Under injective codes `statusOf` is a left inverse of `statusCodeOf`. -/
theorem statusOf_statusCodeOf {k : StatusCodes} (hwf : k.wf = true) (st : ExitStatus) :
    statusOf k (statusCodeOf k st) = st := by
  obtain ⟨-, hinj⟩ := (statusCodes_wf_iff k).1 hwf
  obtain hcode | ⟨hunknown, hother⟩ := statusOf_cases k (statusCodeOf k st)
  · exact hinj hcode
  · rw [hunknown, hother st rfl]

theorem statusOf_of_no_code {k : StatusCodes} {v : Byte} (h : ∀ st, statusCodeOf k st ≠ v) :
    statusOf k v = .unknown := by
  obtain hcode | ⟨hunknown, -⟩ := statusOf_cases k v
  · exact absurd hcode (h _)
  · exact hunknown

theorem defaultStatusCodes_wf : StatusCodes.default.wf = true := by decide

/-- Of the default codes only Unknown's is above 3 (92_eei_decisions.md D4). -/
theorem eq_unknown_of_defaultCode_ge {st : ExitStatus}
    (h : 4 ≤ (statusCodeOf StatusCodes.default st).toNat) : st = .unknown := by
  cases st with
  | unknown => rfl
  | ok | programException | rainbowException | internalException => exact absurd h (by decide)

theorem statusOf_default_of_ge {v : Byte} (h : 4 ≤ v.toNat) :
    statusOf StatusCodes.default v = .unknown := by
  obtain hcode | ⟨hunknown, -⟩ := statusOf_cases StatusCodes.default v
  · exact eq_unknown_of_defaultCode_ge (hcode.symm ▸ h)
  · exact hunknown

/-- Settles O39: 0 and the default codes 1 to 3 are codes of statuses (`statusOf_statusCodeOf`), and
from 4 up only Unknown has a default code. -/
theorem statusOfIsTheInverseOfTheCodes : Obligations.StatusOfIsTheInverseOfTheCodes := by
  refine ⟨fun k st hwf => statusOf_statusCodeOf hwf st, fun k v => statusOf_of_no_code,
    fun k hwf => ?_, statusOf_statusCodeOf defaultStatusCodes_wf .programException,
    statusOf_statusCodeOf defaultStatusCodes_wf .rainbowException,
    statusOf_statusCodeOf defaultStatusCodes_wf .internalException,
    fun v => statusOf_default_of_ge⟩
  obtain ⟨hzero, -⟩ := (statusCodes_wf_iff k).1 hwf
  rw [← hzero]
  exact statusOf_statusCodeOf hwf .ok

end Sys2Proof.Machine

namespace Sys2Proof.Machine

/-! ### The resolved operand, mode by mode -/

section ResolvedOperand
variable {s : State} {flag : Digit}

theorem operandValue_of_immediate (h : flag ≠ s.cfg.indMark) (operand : Byte) :
    operandValue s flag operand = operand := if_neg h

theorem operandValue_of_indirect (h : flag = s.cfg.indMark) (operand : Byte) :
    operandValue s flag operand = s.tape.read operand.toNat := if_pos h

theorem operandAddress_of_indirect (h : flag = s.cfg.indMark) (operand : Byte) :
    operandAddress s flag operand = operand.toNat := if_pos h

/-- An indirect operand that names a cell resolves to its content and its address (R86). -/
theorem resolve_of_indirect (h : flag = s.cfg.indMark) {a : Byte} (ha : CellValid s a) :
    resolve s flag a = .ok { value := s.tape.read a.toNat, address := a.toNat } := by
  rw [resolve_of_readable fun _ => ha, operandValue_of_indirect h, operandAddress_of_indirect h]

end ResolvedOperand

/-! ### Set -/

/-- Set on a cell of the tape, its operand readable, writes the resolved value and advances
(42_set.md R140). -/
theorem exec_set_of_valid {da : Byte} {flag : Digit} {operand : Byte} {s : State}
    (hd : CellValid s da) (hr : OperandReadable s flag operand) :
    exec (.set da flag operand) s =
      .next (wroteCell s da.toNat (operandValue s flag operand)) := by
  rw [exec, execSet, runArmAdvance_of_readable hr, memWrite_of_lt hd, Res.map_ok, settle_ok]
  rfl

theorem read_wroteCell_self {s : State} (hwf : s.tape.wf = true) (a : Nat) (v : Byte) :
    (wroteCell s a v).tape.read a = v := Memory.read_write_self s.tape a v hwf

/-- Settles O28: the resolved value is the literal in immediate mode, the cell in indirect mode. -/
theorem setStoresTheValue : Obligations.SetStoresTheValue := by
  refine fun da flag operand s hd => ⟨fun himm => ?_, fun hind hlt => ?_⟩
  · rw [exec_set_of_valid hd fun hind => absurd hind himm, operandValue_of_immediate himm]
  · rw [exec_set_of_valid hd fun _ => hlt, operandValue_of_indirect hind]

/-- Settles O29: resolving the cell reads the tape Set wrote, which answers the value written
(`read_wroteCell_self`, on a canonical tape). -/
theorem setIsReadBack : Obligations.SetIsReadBack := by
  refine fun da flag operand s hwf hd hr => ⟨_, exec_set_of_valid hd hr, ?_⟩
  have hvalid : CellValid (wroteCell s da.toNat (operandValue s flag operand)) da := hd
  rw [resolve_of_indirect rfl hvalid, read_wroteCell_self hwf]

/-! ### The frame of the instructions that write one cell -/

/-- Set and the arithmetic instructions write their cell and advance, or take a fault. -/
theorem ExecNext.of_writesCell {i : Instr} {s t : State} (h : ExecNext i s t)
    (hop : writesCell i.opcode = true) :
    (∃ v, t = wroteCell s i.da.toNat v) ∨ ∃ r, t = s.takeFault r := by
  cases h with
  | write _ _ _ v => exact .inl ⟨v, rfl⟩
  | fault r => exact .inr ⟨r, rfl⟩
  | exit hother | print hother | label hother | lookBack hother | lookAhead hother
  | inputDone hother | inputFault hother => simp [hother, writesCell] at hop

/-- Settles O36: writing the cell and advancing leaves all but that cell and `pc`, and fault entry
leaves all but `run`, `status` and `cause`. -/
theorem cellWriteFrame : Obligations.CellWriteFrame := by
  intro i s t hmem ht
  have hwrites : ∀ op ∈ [Opcode.set, .add, .sub, .mul, .div, .mod], writesCell op = true := by
    decide
  obtain ⟨v, rfl⟩ | ⟨r, rfl⟩ := (exec_next ht).of_writesCell (hwrites i.opcode hmem)
  · exact ⟨fun a ha => Memory.read_write_other s.tape i.da.toNat a v ha, rfl, rfl, rfl, rfl, rfl,
      .inl ⟨rfl, rfl, rfl, rfl⟩⟩
  · exact ⟨fun _ _ => rfl, rfl, rfl, rfl, rfl, rfl, .inr ⟨rfl, rfl, rfl⟩⟩

end Sys2Proof.Machine

namespace Sys2Proof.Machine

/-! ### The address of a Print or an Input -/

theorem operandAddress_of_immediate {s : State} {flag : Digit} (h : flag ≠ s.cfg.indMark)
    (operand : Byte) : operandAddress s flag operand = 0 := if_neg h

/-- Start and end of a range are then cells of the tape (43_io.md R150, R151). -/
theorem operandAddress_lt_of_cellValid {da : Byte} {flag : Digit} {operand : Byte} {s : State}
    (hd : CellValid s da) (hr : OperandReadable s flag operand) :
    operandAddress s flag operand < s.cfg.tapeSize :=
  operandAddress_lt hr (Nat.zero_lt_of_lt hd)

/-! ### What Print emits -/

/-- The separator, in the words of the claims (43_io.md R152, R154). -/
theorem separator_eq_ite (c : Config) :
    separator c = if c.outputMode = .ascii then [] else c.delim := by
  unfold separator
  cases c.outputMode <;> simp

/-- A Print joins the renderings of its cells by the separator. -/
theorem renderCells_eq_intercalate (c : Config) (bs : List Byte) :
    renderCells c bs = (separator c).intercalate (bs.map (render c.outputMode)) := by
  induction bs using renderCells.induct with
  | case1 => simp [renderCells]
  | case2 b => simp [renderCells]
  | case3 b b' bs ih =>
    rw [renderCells, ih]
    exact List.intercalate_cons_cons.symm

section Print
variable {da : Byte} {flag : Digit} {operand : Byte} {s : State}

/-- Print from a cell of the tape, its operand readable, emits its range and advances (R151). -/
theorem exec_print_of_valid (hd : CellValid s da) (hr : OperandReadable s flag operand) :
    exec (.print da flag operand) s = .next (s.emitAll (renderCells s.cfg
      ((List.range' da.toNat (operandAddress s flag operand + 1 - da.toNat)).map
        s.tape.read))).advance := by
  rw [exec, execPrint, runArmAdvance_of_readable hr,
    printRange_of_valid s _ _ hd (operandAddress_lt_of_cellValid hd hr), Res.map_ok, settle_ok]

/-- A range that ends below its start is empty (R155). -/
theorem exec_print_of_end_lt_start (hd : CellValid s da) (hr : OperandReadable s flag operand)
    (hlt : operandAddress s flag operand < da.toNat) :
    exec (.print da flag operand) s = .next s.advance := by
  have hempty : operandAddress s flag operand + 1 - da.toNat = 0 := by omega
  rw [exec_print_of_valid hd hr, hempty]
  simp [renderCells, State.emitAll]

/-- A range that ends where it starts is one cell (R155). -/
theorem exec_print_of_end_eq_start (hd : CellValid s da) (hr : OperandReadable s flag operand)
    (heq : operandAddress s flag operand = da.toNat) :
    exec (.print da flag operand) s =
      .next (s.emitAll (render s.cfg.outputMode (s.tape.read da.toNat))).advance := by
  have hone : operandAddress s flag operand + 1 - da.toNat = 1 := by omega
  rw [exec_print_of_valid hd hr, hone]
  rfl

end Print

/-- Settles O51: the cells of the range, joined as `renderCells_eq_intercalate` says. -/
theorem printAppendsTheRenderedRange : Obligations.PrintAppendsTheRenderedRange := by
  intro da flag operand s hd hr
  rw [exec_print_of_valid hd hr, renderCells_eq_intercalate, separator_eq_ite, List.map_map]
  rfl

/-- Settles O52: an immediate operand has the address 0, so it is below `da` or `da` is 0. -/
theorem printRangeCorners : Obligations.PrintRangeCorners := by
  intro da flag operand s hd
  refine ⟨fun himm hne => ?_, fun himm hzero => ?_, fun hind hlt => ?_, fun hind heq => ?_⟩
  · have hpos : 0 < da.toNat := Nat.pos_of_ne_zero fun h => hne (BitVec.eq_of_toNat_eq h)
    exact exec_print_of_end_lt_start hd (absurd · himm)
      ((operandAddress_of_immediate himm operand).trans_lt hpos)
  · subst hzero
    exact exec_print_of_end_eq_start hd (absurd · himm) (operandAddress_of_immediate himm operand)
  · have haddr : operandAddress s flag operand = operand.toNat := operandAddress_of_indirect hind _
    exact exec_print_of_end_lt_start hd (fun _ => hlt.trans hd) (haddr.trans_lt hlt)
  · subst heq
    exact exec_print_of_end_eq_start hd (fun _ => hd) (operandAddress_of_indirect hind operand)

/-! ### Digits and the numbers they spell -/

theorem isDigitByte_iff (b : Byte) : isDigitByte b = true ↔ 0x30 ≤ b.toNat ∧ b.toNat ≤ 0x39 := by
  simp [isDigitByte]

/-- `numVal` reads the digits most significant first, `Nat.ofDigits` least significant first. -/
theorem numVal_eq_ofDigits (l : Line) : numVal l = Nat.ofDigits 10 (l.reverse.map digitValue) := by
  rw [Nat.ofDigits_eq_foldr, List.foldr_map, List.foldr_reverse, numVal]
  congr
  funext acc b
  simp only [Nat.cast_id]
  omega

/-- Settles O54: the three tests of `isNumeric`, each in the words of the claim. -/
theorem numericLineTest : Obligations.NumericLineTest := by
  intro c l
  rw [isNumeric, Bool.and_eq_true, Bool.and_eq_true, decide_eq_true_eq, and_assoc,
    numVal_eq_ofDigits, List.all_eq_true]
  simp only [isDigitByte_iff, Bool.not_eq_true', List.isEmpty_eq_false_iff]
  rfl

/-! ### The rendering of one cell -/

section Digits
variable {d : Nat}

theorem decimalChar_toNat (h : d < 10) : (decimalChar d).toNat = 0x30 + d := by
  rw [decimalChar, BitVec.toNat_ofNat]
  omega

theorem digitValue_decimalChar (h : d < 10) : digitValue (decimalChar d) = d := by
  rw [digitValue, decimalChar_toNat h, Nat.add_sub_cancel_left]

theorem isDigitByte_decimalChar (h : d < 10) : isDigitByte (decimalChar d) = true := by
  rw [isDigitByte_iff, decimalChar_toNat h]
  omega

theorem decimalChar_ne_zeroChar (h : d < 10) (hpos : 0 < d) : decimalChar d ≠ 0x30 := by
  intro heq
  have hval : (decimalChar d).toNat = 0x30 := congrArg BitVec.toNat heq
  rw [decimalChar_toNat h] at hval
  omega

/-- Below ten the digits 0 to 9, from ten up the letters from A (43_io.md R152). -/
theorem hexChar_toNat (h : d < 16) :
    (hexChar d).toNat = 0x30 + d ∧ d < 10 ∨ (hexChar d).toNat = 0x41 + d - 10 ∧ 10 ≤ d := by
  unfold hexChar
  split
  · exact .inl ⟨decimalChar_toNat ‹_›, ‹_›⟩
  · rw [BitVec.toNat_ofNat]
    omega

end Digits

section RenderDecimal
variable (c : Byte)

theorem renderDecimal_ne_nil : renderDecimal c ≠ [] := by
  unfold renderDecimal
  split_ifs <;> simp

theorem renderDecimal_all_isDigitByte : (renderDecimal c).all isDigitByte = true := by
  unfold renderDecimal
  split_ifs <;> simp (disch := omega) [isDigitByte_decimalChar]

theorem numVal_renderDecimal : numVal (renderDecimal c) = c.toNat := by
  unfold renderDecimal
  split_ifs <;> simp (disch := omega) only [numVal, List.foldl, digitValue_decimalChar] <;> omega

/-- Only the cell 0 is rendered with the digit 0 in front, and it has no other digit. -/
theorem renderDecimal_head_zero (h : (renderDecimal c).head? = some 0x30) :
    renderDecimal c = [0x30] := by
  unfold renderDecimal at h ⊢
  split_ifs at h ⊢
  · simpa using h
  all_goals exact absurd (Option.some.inj h) (decimalChar_ne_zeroChar (by omega) (by omega))

end RenderDecimal

/-- Settles O53: ASCII by definition, Decimal and Hex digit by digit. -/
theorem cellsRenderAsSpecified : Obligations.CellsRenderAsSpecified := fun c =>
  ⟨rfl,
    ⟨renderDecimal_ne_nil c, renderDecimal_all_isDigitByte c, numVal_renderDecimal c,
      renderDecimal_head_zero c⟩,
    _, _, rfl, hexChar_toNat (by omega), hexChar_toNat (by omega)⟩

/-! ### What Input does with a line -/

section Input
variable {da : Byte} {flag : Digit} {operand : Byte} {s : State} {l : Line}

/-- Input, its addresses in range, with a line next: the line is consumed and decides the rest
(43_io.md R160). -/
theorem exec_input_of_nextLine (hd : CellValid s da) (hr : OperandReadable s flag operand)
    (hl : s.nextLine = some l) :
    exec (.input da flag operand) s = settle s.consumeLine
      ((inputLine s.consumeLine da.toNat (operandAddress s flag operand) l).map State.advance) := by
  rw [exec, execInput_of_valid hr hd, inputFrom, hl]

/-- A numeric line (R162, R165). -/
theorem exec_input_of_numeric (hd : CellValid s da) (hr : OperandReadable s flag operand)
    (hl : s.nextLine = some l) (hnum : isNumeric s.cfg l = true) :
    exec (.input da flag operand) s = .next (s.consumeLine.withTape
      ((s.tape.write da.toNat (.ofNat 8 (numVal l))).write
        (operandAddress s flag operand) s.cfg.numMarker)).advance := by
  rw [exec_input_of_nextLine hd hr hl, inputLine_of_numeric (s := s.consumeLine) _ _ hnum,
    inputNumber_of_valid s.consumeLine _ _ l hd (operandAddress_lt_of_cellValid (s := s) hd hr)]
  rfl

/-- A text line that fits (R163, R165). -/
theorem exec_input_of_text_fits (hd : CellValid s da) (hr : OperandReadable s flag operand)
    (hl : s.nextLine = some l) (htext : isNumeric s.cfg l = false)
    (hfit : da.toNat + l.length ≤ s.cfg.tapeSize) :
    exec (.input da flag operand) s = .next (s.consumeLine.withTape
      ((lineTape s.tape da.toNat l).write
        (operandAddress s flag operand) (.ofNat 8 (da.toNat + l.length)))).advance := by
  rw [exec_input_of_nextLine hd hr hl, inputLine_of_text (s := s.consumeLine) _ _ htext,
    inputText_of_fits s.consumeLine _ _ l hfit (operandAddress_lt_of_cellValid (s := s) hd hr)]
  rfl

end Input

/-- Settles O55: the marker is written last, so it is read back in its cell in every case, and the
number in the start cell where the two differ. -/
theorem inputStoresANumericLine : Obligations.InputStoresANumericLine := by
  intro da flag operand s l hwf hd hr hl hnum
  refine ⟨_, exec_input_of_numeric hd hr hl hnum, ?_, fun hne => ?_, fun a hstart hsent => ?_⟩
  · exact Memory.read_write_self _ _ _ (Memory.write_wf _ _ _ hwf)
  · rw [State.withTape_tape, Memory.read_write_other _ _ _ _ hne,
      Memory.read_write_self _ _ _ hwf, BitVec.toNat_ofNat]
  · rw [State.withTape_tape, Memory.read_write_other _ _ _ _ hsent,
      Memory.read_write_other _ _ _ _ hstart]

/-- Settles O56: the sentinel is written last, over the tape that holds the line (`lineTape`). -/
theorem inputStoresATextLine : Obligations.InputStoresATextLine := by
  intro da flag operand s l hwf hd hr hl htext hfit
  refine ⟨_, exec_input_of_text_fits hd hr hl htext hfit, ?_, fun k b hk hne => ?_,
    fun a hout hsent => ?_⟩
  · rw [State.withTape_tape, Memory.read_write_self _ _ _ (lineTape_wf _ _ _ hwf),
      BitVec.toNat_ofNat]
  · rw [State.withTape_tape, Memory.read_write_other _ _ _ _ hne,
      lineTape_read_inside _ _ _ _ _ hwf hk]
  · rw [State.withTape_tape, Memory.read_write_other _ _ _ _ hsent,
      lineTape_read_outside _ _ _ _ hout]

/-- Settles O57: the length check comes before the first write, and after the line is consumed. -/
theorem inputTextTooLongFaults : Obligations.InputTextTooLongFaults := by
  intro da flag operand s l hd hr hl htext hlong
  rw [exec_input_of_nextLine hd hr hl, inputLine_of_text (s := s.consumeLine) _ _ htext,
    inputText_of_too_long s.consumeLine _ _ l hlong]
  rfl

/-! ### The wait for a line -/

theorem nextLine_of_all_consumed {s : State} (h : s.consumed = s.inp.length) :
    s.nextLine = none :=
  List.getElem?_eq_none h.ge

/-- The line supplied to a machine that has consumed all it had is its next one. -/
theorem nextLine_supplyLine {s : State} (h : s.consumed = s.inp.length) (l : Line) :
    (s.supplyLine l).nextLine = some l := by
  rw [State.nextLine, State.supplyLine_inp, State.supplyLine_consumed, h,
    List.getElem?_concat_length]

/-- With a line next, Input answers a state that has consumed it, whatever the line is. -/
theorem exec_input_consumes {da : Byte} {flag : Digit} {operand : Byte} {s : State} {l : Line}
    (hd : CellValid s da) (hr : OperandReadable s flag operand) (hl : s.nextLine = some l) :
    ∃ t, exec (.input da flag operand) s = .next t ∧ t.consumed = s.consumed + 1 ∧
      t.inp = s.inp := by
  rw [exec_input_of_nextLine hd hr hl]
  obtain ⟨m, hm, -, -⟩ | hlong := inputLine_cases s.consumeLine da.toNat _ l hd
    (operandAddress_lt_of_cellValid (s := s) hd hr)
  · rw [hm]
    exact ⟨_, rfl, rfl, rfl⟩
  · rw [hlong]
    exact ⟨_, rfl, rfl, rfl⟩

/-- Settles O58: with every line consumed there is none next, and the one the host supplies then is
next. -/
theorem inputWaitsForALine : Obligations.InputWaitsForALine := by
  refine fun da flag operand s hd hr hall => ⟨?_, fun l => ?_⟩
  · rw [exec, execInput_of_valid hr hd, inputFrom, nextLine_of_all_consumed hall]
  · exact exec_input_consumes (s := s.supplyLine l) hd hr (nextLine_supplyLine hall l)

end Sys2Proof.Machine

namespace Sys2Proof.Machine

/-! ### The match test, one answer per kind of word -/

section MatchTest
variable {s : State} {i : Nat} {w : ProgWord} {j : Instr} (hw : s.prog[i]? = some w)
include hw

theorem inspectable_of_instr (hd : decode s.cfg w = .instr j)
    (hr : OperandReadable s j.flag j.operand) : inspectable s i = true := by
  simp only [inspectable, hw, hd, decide_eq_true hr]

theorem carriesLabel_of_instr (hd : decode s.cfg w = .instr j) (v : Byte) :
    carriesLabel s i v = decide (j.opcode = .label ∧ operandValue s j.flag j.operand = v) := by
  simp only [carriesLabel, hw, hd, Bool.decide_and, beq_eq_decide]

/-- A word whose operand is readable matches exactly as a Label of the wanted value
(44_control_flow.md R181, R182). -/
theorem labelMatches_of_instr (hd : decode s.cfg w = .instr j)
    (hr : OperandReadable s j.flag j.operand) (v : Byte) :
    labelMatches s i v =
      .ok (decide (j.opcode = .label ∧ operandValue s j.flag j.operand = v)) := by
  rw [labelMatches_of_inspectable (inspectable_of_instr hw hd hr), carriesLabel_of_instr hw hd]

/-- A word the decoder rejects (R189, D9). -/
theorem labelMatches_of_reject {r : DecodeReject} (hd : decode s.cfg w = .reject r) (v : Byte) :
    labelMatches s i v = .raise { kind := .decodeFault, inspected := some i } := by
  simp only [labelMatches, progRead, hw, inspectWord, hd, raiseKind, Res.inspectedAt_raise]

/-- A word whose operand lies outside the tape (R189, D9). -/
theorem labelMatches_of_unreadable (hd : decode s.cfg w = .instr j)
    (hr : ¬ OperandReadable s j.flag j.operand) (v : Byte) :
    labelMatches s i v = .raise { kind := .tapeRange j.operand.toNat, inspected := some i } := by
  simp only [labelMatches, progRead, hw, inspectWord, hd, resolve_of_unreadable hr, raiseKind,
    Res.map_raise, Res.inspectedAt_raise]

end MatchTest

/-- A word the match test answers for is inspectable. -/
theorem inspectable_of_labelMatches {s : State} {i : Nat} {v : Byte} {m : Bool}
    (hi : i < s.progLength) (h : labelMatches s i v = .ok m) : inspectable s i = true := by
  by_contra hn
  obtain ⟨k, hk⟩ := labelMatches_of_not_inspectable (v := v) hi (Bool.eq_false_of_not_eq_true hn)
  exact nomatch h.symm.trans hk

/-- Whether a search can inspect a word depends on nothing a step writes. -/
theorem inspectable_congr {s t : State} (hcfg : t.cfg = s.cfg) (hprog : t.prog = s.prog) (i : Nat) :
    inspectable t i = inspectable s i := by
  simp only [inspectable, OperandReadable, IsIndirect, hcfg, hprog]

/-- Settles O41: the word's own operand is readable in each mode exactly as the cases say. -/
theorem matchTestAsSpecified : Obligations.MatchTestAsSpecified := by
  refine fun s i v w hw => ⟨fun r hd => labelMatches_of_reject hw hd v,
    fun j hd hflag hrange => ?_, fun j hd hflag hrange => ?_, fun j hd hflag => ?_⟩
  · exact labelMatches_of_unreadable hw hd (fun hr => Nat.not_lt.2 hrange (hr hflag)) v
  · rw [labelMatches_of_instr hw hd fun _ => hrange, operandValue_of_indirect hflag]
  · rw [labelMatches_of_instr hw hd fun h => absurd h hflag, operandValue_of_immediate hflag]

/-! ### The two searches

Each passes over words that carry no match, and stops at the first that does, or faults at the first
that it cannot inspect. -/

/-- A search for `v` inspects the word at `j` and goes on. -/
def PassedOver (s : State) (v : Byte) (j : Nat) : Prop :=
  inspectable s j = true ∧ carriesLabel s j v = false

section Searches
variable {s : State} {v : Byte} {i k p : Nat}

theorem PassedOver.labelMatches (h : PassedOver s v i) : labelMatches s i v = .ok false := by
  rw [labelMatches_of_inspectable h.1, h.2]

theorem labelMatches_of_carries (hi : inspectable s k = true) (hc : carriesLabel s k v = true) :
    labelMatches s k v = .ok true := by
  rw [labelMatches_of_inspectable hi, hc]

theorem searchBack_pass (h : PassedOver s v (i + 1)) : searchBack s v (i + 1) = searchBack s v i := by
  rw [searchBack, h.labelMatches, Res.bind_ok, if_neg Bool.false_ne_true]

/-- The words above `k` passed over, a backward search comes to `k`. -/
theorem searchBack_skip (hki : k ≤ i) (hpass : ∀ j, k < j → j ≤ i → PassedOver s v j) :
    searchBack s v i = searchBack s v k := by
  induction i, hki using Nat.le_induction with
  | base => rfl
  | succ i hki ih =>
    rw [searchBack_pass (hpass (i + 1) (by omega) le_rfl)]
    exact ih fun j hkj hji => hpass j hkj (by omega)

/-- A backward search at a match stops there; at index 0 it stops in any case (R185). -/
theorem searchBack_of_carries (hi : inspectable s k = true) (hc : carriesLabel s k v = true) :
    searchBack s v k = .ok k := by
  cases k with
  | zero => rfl
  | succ k => rw [searchBack, labelMatches_of_carries hi hc, Res.bind_ok, if_pos rfl]

theorem searchBack_of_raise {r : Raise} (hk : 1 ≤ k) (h : labelMatches s k v = .raise r) :
    searchBack s v k = .raise r := by
  cases k with
  | zero => exact absurd hk (Nat.not_lt_zero 0)
  | succ k => rw [searchBack, h, Res.bind_raise]

/-- A backward search over inspectable words stops somewhere. -/
theorem searchBack_completes (h : ∀ j, j ≤ i → inspectable s j = true) :
    ∃ r, searchBack s v i = .ok r := by
  induction i with
  | zero => exact ⟨0, rfl⟩
  | succ i ih =>
    have hi := h (i + 1) le_rfl
    cases hc : carriesLabel s (i + 1) v with
    | true => exact ⟨i + 1, searchBack_of_carries hi hc⟩
    | false =>
      rw [searchBack_pass ⟨hi, hc⟩]
      exact ih fun j hj => h j (by omega)

/-- One index of a forward search below the last one (R186). -/
theorem searchAhead_step (h : p + 1 < s.progLength) :
    searchAhead s v p =
      (labelMatches s p v).bind fun m => if m then .ok p else searchAhead s v (p + 1) := by
  have hleft : s.progLength - 1 - p = s.progLength - 1 - (p + 1) + 1 := by omega
  rw [searchAhead, hleft, searchAheadFrom, searchAhead]

/-- A forward search never inspects the last index (R187, R188). -/
theorem searchAhead_last (h : s.progLength ≤ p + 1) :
    searchAhead s v p = .ok (s.progLength - 1) := by
  have hleft : s.progLength - 1 - p = 0 := by omega
  rw [searchAhead, hleft, searchAheadFrom]

theorem searchAhead_pass (hp : p + 1 < s.progLength) (h : PassedOver s v p) :
    searchAhead s v p = searchAhead s v (p + 1) := by
  rw [searchAhead_step hp, h.labelMatches, Res.bind_ok, if_neg Bool.false_ne_true]

/-- The words below `k` passed over, a forward search comes to `k`. -/
theorem searchAhead_skip (hpk : p ≤ k) (hk : k < s.progLength)
    (hpass : ∀ j, p ≤ j → j < k → PassedOver s v j) :
    searchAhead s v p = searchAhead s v k := by
  induction k, hpk using Nat.le_induction with
  | base => rfl
  | succ k hpk ih =>
    rw [ih (by omega) fun j hpj hjk => hpass j hpj (by omega),
      searchAhead_pass hk (hpass k hpk (Nat.lt_succ_self k))]

/-- A forward search at a match stops there; at the last index it stops in any case (R188). -/
theorem searchAhead_of_carries (hk : k < s.progLength) (hi : inspectable s k = true)
    (hc : carriesLabel s k v = true) : searchAhead s v k = .ok k := by
  by_cases hlast : k + 1 < s.progLength
  · rw [searchAhead_step hlast, labelMatches_of_carries hi hc, Res.bind_ok, if_pos rfl]
  · rw [searchAhead_last (by omega)]
    exact congrArg Res.ok (by omega)

theorem searchAhead_of_raise {r : Raise} (hk : k + 1 < s.progLength)
    (h : labelMatches s k v = .raise r) : searchAhead s v k = .raise r := by
  rw [searchAhead_step hk, h, Res.bind_raise]

/-- A forward search from below the last index that stops has inspected its first word, and stopped
there or at the next search's stop. -/
theorem searchAhead_eq_ok {r : Nat} (hp : p + 1 < s.progLength) (h : searchAhead s v p = .ok r) :
    inspectable s p = true ∧ (r = p ∨ searchAhead s v (p + 1) = .ok r) := by
  rw [searchAhead_step hp, Res.bind_eq_ok] at h
  obtain ⟨m, hm, h⟩ := h
  refine ⟨inspectable_of_labelMatches (by omega) hm, ?_⟩
  cases m with
  | true => exact .inl (Res.ok.inj h).symm
  | false => exact .inr h

/-- The search from any index that a forward search came through stops where that one did. -/
theorem searchAhead_from_between {r j : Nat} (h : searchAhead s v p = .ok r)
    (hr : r < s.progLength) (hpj : p ≤ j) (hjr : j ≤ r) : searchAhead s v j = .ok r := by
  induction j, hpj using Nat.le_induction with
  | base => exact h
  | succ j hpj ih =>
    obtain ⟨-, rfl | hnext⟩ := searchAhead_eq_ok (by omega) (ih (by omega))
    · exact absurd hjr (Nat.not_succ_le_self r)
    · exact hnext

/-- A forward search that stops before the last index has inspected every word up to its stop (R186,
R189). -/
theorem inspectable_of_searchAhead {r j : Nat} (h : searchAhead s v p = .ok r)
    (hr : r + 1 < s.progLength) (hpj : p ≤ j) (hjr : j ≤ r) : inspectable s j = true :=
  (searchAhead_eq_ok (by omega) (searchAhead_from_between h (by omega) hpj hjr)).1

end Searches

/-! ### Every step keeps the words behind `pc` inspectable -/

/-- An instruction that goes forward leaves behind only words that it, or its search, has inspected,
as long as a word remains to fetch (R189). -/
theorem ExecNext.inspectable_behind {i : Instr} {s t : State} (h : ExecNext i s t)
    (hself : OperandReadable s i.flag i.operand → inspectable s s.pc = true)
    (hend : t.pc < s.progLength) {n : Nat} (hn : s.pc ≤ n) (hlt : n < t.pc) :
    inspectable s n = true := by
  have hpc (hr : OperandReadable s i.flag i.operand) (hle : n ≤ s.pc) : inspectable s n = true :=
    Nat.le_antisymm hle hn ▸ hself hr
  cases h with
  | fault | exit | inputFault => exact absurd hlt (Nat.not_lt.2 hn)
  | write _ hr | print _ hr | label _ hr | inputDone _ hr => exact hpc hr (Nat.le_of_lt_succ hlt)
  | lookBack _ hr j hj => exact hpc hr ((Nat.le_of_lt_succ hlt).trans (searchBack_le hj))
  | lookAhead _ _ j hj =>
    exact inspectable_of_searchAhead hj hend hn (Nat.le_of_lt_succ hlt)

/-- The words before the old `pc` were inspectable, and from there on the step leaves none behind that
is not. -/
theorem ScannedPrefix.of_inspectable_from {s t : State} (h : ScannedPrefix s) (hcfg : t.cfg = s.cfg)
    (hprog : t.prog = s.prog) (hpc : s.pc < s.progLength)
    (hnew : t.pc < s.progLength → ∀ n, s.pc ≤ n → n < t.pc → inspectable s n = true) :
    ScannedPrefix t := by
  intro hend n hn
  have hlen : t.progLength = s.progLength := congrArg List.length hprog
  rw [inspectable_congr hcfg hprog]
  by_cases hold : n < s.pc
  · exact h hpc n hold
  · exact hnew (hlen ▸ hend) n (Nat.not_lt.1 hold) hn

/-- Settles O4, from what a step can do (`step_next`): past the last word there is nothing to show, a
rejected word leaves `pc`, and an instruction leaves behind only what it inspected. -/
theorem stepKeepsScannedPrefix : Obligations.StepKeepsScannedPrefix := by
  intro s t _ h ht
  obtain ⟨-, ⟨hend, rfl⟩ | ⟨w, hw, hcase⟩⟩ := step_next ht
  · exact fun hlt => absurd hlt (Nat.not_lt.2 hend)
  · have hpc : s.pc < s.progLength := (List.getElem?_eq_some_iff.1 hw).1
    rcases hcase with ⟨-, rfl⟩ | ⟨i, hd, hi⟩
    · exact h
    · obtain ⟨hcfg, hprog, -⟩ := hi.construction
      exact h.of_inspectable_from hcfg hprog hpc fun hend n =>
        hi.inspectable_behind (inspectable_of_instr hw hd) hend

/-! ### Label, LookBack and LookAhead on a readable operand -/

section Control
variable {da : Byte} {flag : Digit} {operand : Byte} {s : State}
  (hr : OperandReadable s flag operand)
include hr

theorem exec_label_of_readable : exec (.label da flag operand) s = .next s.advance := by
  rw [exec, execLabel, runArmAdvance_of_readable hr, Res.map_ok, settle_ok]

/-- A LookBack whose search stops (44_control_flow.md R183). -/
theorem exec_lookBack_of_ok {j : Nat}
    (hj : searchBack s (operandValue s flag operand) s.pc = .ok j) :
    exec (.lookBack da flag operand) s = .next { s with pc := j + 1 } := by
  rw [exec, execLookBack, runArmAdvance_of_readable hr, hj]
  rfl

/-- A LookBack whose search faults (R189). -/
theorem exec_lookBack_of_raise {r : Raise}
    (hraise : searchBack s (operandValue s flag operand) s.pc = .raise r) :
    exec (.lookBack da flag operand) s = .next (faultState s r.kind r.inspected) := by
  rw [exec, execLookBack, runArmAdvance_of_readable hr, hraise]
  rfl

/-- A LookAhead whose search stops (R186). -/
theorem exec_lookAhead_of_ok {j : Nat}
    (hj : searchAhead s (operandValue s flag operand) s.pc = .ok j) :
    exec (.lookAhead da flag operand) s = .next { s with pc := j + 1 } := by
  rw [exec, execLookAhead, runArmAdvance_of_readable hr, hj]
  rfl

/-- A LookAhead whose search faults (R189). -/
theorem exec_lookAhead_of_raise {r : Raise}
    (hraise : searchAhead s (operandValue s flag operand) s.pc = .raise r) :
    exec (.lookAhead da flag operand) s = .next (faultState s r.kind r.inspected) := by
  rw [exec, execLookAhead, runArmAdvance_of_readable hr, hraise]
  rfl

end Control

/-- Settles O40: the arm of a Label leaves the state as it is, and the advance writes `pc`. -/
theorem labelOnlyAdvances : Obligations.LabelOnlyAdvances :=
  fun _ _ _ _ hr => exec_label_of_readable hr

/-- Settles O5: the words from `pc` down are inspectable, the LookBack's own included, and that one is
no Label, so the search stops below it. -/
theorem lookBackCompletesAfterScan : Obligations.LookBackCompletesAfterScan := by
  intro s w da flag operand hrun hscan hw hd hr
  have hself : inspectable s s.pc = true := inspectable_of_instr hw hd hr
  have hnolabel (v : Byte) : carriesLabel s s.pc v = false := by
    rw [carriesLabel_of_instr hw hd]
    exact decide_eq_false fun h => nomatch h.1
  have hpc : s.pc < s.progLength := (List.getElem?_eq_some_iff.1 hw).1
  have hbehind (j : Nat) (hj : j ≤ s.pc) : inspectable s j = true := by
    rcases Nat.lt_or_eq_of_le hj with hlt | rfl
    · exact hscan hpc j hlt
    · exact hself
  obtain ⟨j, hj⟩ := searchBack_completes (v := operandValue s flag operand) hbehind
  refine ⟨j, searchBack_lt_of_not_carries hj hself (hnolabel _), ?_⟩
  rw [step_of_instr hrun hw hd, exec_lookBack_of_ok hr hj]

/-! ### Where the searches go -/

/-- Settles O42: the search passes over the words above `k` and stops at `k`. -/
theorem lookBackGoesPastTheNearestLabel : Obligations.LookBackGoesPastTheNearestLabel := by
  intro da flag operand s k hr _ hk hinsp hc hnone
  refine exec_lookBack_of_ok hr ?_
  rw [searchBack_skip hk fun j hkj hj => ⟨hinsp j hkj.le hj, hnone j hkj hj⟩]
  exact searchBack_of_carries (hinsp k le_rfl hk) hc

/-- Settles O43: the search passes over every word down to index 0, where it stops. -/
theorem failedLookBackGoesToIndexOne : Obligations.FailedLookBackGoesToIndexOne := by
  intro da flag operand s hr hpass
  refine ⟨exec_lookBack_of_ok hr ?_, fun hrun hlen => step_of_end hrun hlen.le⟩
  exact searchBack_skip (Nat.zero_le s.pc) hpass

/-- Settles O45: the search passes over the words below `k` and stops at `k`. -/
theorem lookAheadGoesPastTheNearestLabel : Obligations.LookAheadGoesPastTheNearestLabel := by
  intro da flag operand s k hr hk hlast hinsp hc hnone
  have hlt : k < s.progLength := by omega
  refine exec_lookAhead_of_ok hr ?_
  rw [searchAhead_skip hk hlt fun j hj hjk => ⟨hinsp j hj hjk.le, hnone j hj hjk⟩]
  exact searchAhead_of_carries hlt (hinsp k hk le_rfl) hc

/-- A LookAhead that passes over every word below the last index goes to `N` (44_control_flow.md
R187). -/
theorem exec_lookAhead_of_passed {da : Byte} {flag : Digit} {operand : Byte} {s : State}
    (hr : OperandReadable s flag operand) (hpc : s.pc < s.progLength)
    (hpass : ∀ j, s.pc ≤ j → j + 1 < s.progLength →
      PassedOver s (operandValue s flag operand) j) :
    exec (.lookAhead da flag operand) s = .next { s with pc := s.progLength } := by
  have hsearch : searchAhead s (operandValue s flag operand) s.pc = .ok (s.progLength - 1) := by
    rw [searchAhead_skip (k := s.progLength - 1) (by omega) (by omega)
      fun j hj hlast => hpass j hj (by omega)]
    exact searchAhead_last (by omega)
  rw [exec_lookAhead_of_ok hr hsearch, Nat.sub_add_cancel (by omega)]

/-- Settles O46: the search passes over every word below the last index, where it stops. -/
theorem failedLookAheadEndsTheRun : Obligations.FailedLookAheadEndsTheRun :=
  fun _ _ _ _ hr hpc hpass =>
    ⟨exec_lookAhead_of_passed hr hpc hpass, fun hrun => step_of_end hrun le_rfl⟩

/-- A word that is rejected or whose own operand is unreadable makes the match test raise (R189). -/
theorem labelMatches_of_bad_word {s : State} {i : Nat} {w : ProgWord} {kind : FaultKind}
    (hw : s.prog[i]? = some w)
    (hbad : (∃ r, decode s.cfg w = .reject r ∧ kind = .decodeFault) ∨
      ∃ j, decode s.cfg w = .instr j ∧ ¬ OperandReadable s j.flag j.operand ∧
        kind = .tapeRange j.operand.toNat) (v : Byte) :
    labelMatches s i v = .raise { kind := kind, inspected := some i } := by
  obtain ⟨r, hd, rfl⟩ | ⟨j, hd, hr, rfl⟩ := hbad
  · exact labelMatches_of_reject hw hd v
  · exact labelMatches_of_unreadable hw hd hr v

/-- Settles O48: the search comes to the bad word past the others, and its match test raises. -/
theorem searchFaultsOnTheFirstBadWord : Obligations.SearchFaultsOnTheFirstBadWord := by
  intro da flag operand s i w kind hr hw hbad
  have hraise := labelMatches_of_bad_word hw hbad (operandValue s flag operand)
  refine ⟨fun hpos hi hpass => ?_, fun hi hlast hpass => ?_⟩
  · have hsearch := searchBack_skip hi hpass
    rw [searchBack_of_raise hpos hraise] at hsearch
    exact exec_lookBack_of_raise hr hsearch
  · have hsearch := searchAhead_skip hi (by omega) hpass
    rw [searchAhead_of_raise hlast hraise] at hsearch
    exact exec_lookAhead_of_raise hr hsearch

/-- Settles O49: every word but the one at `k` is passed over, so a search stops at `k` or at its
boundary. -/
theorem singleLabelIsTheTarget : Obligations.SingleLabelIsTheTarget := by
  intro da flag operand s k hr hpc hinsp honly
  have hpass (j : Nat) (hj : j < s.progLength) (hne : j ≠ k) :
      PassedOver s (operandValue s flag operand) j :=
    ⟨hinsp j hj, Bool.eq_false_of_not_eq_true (mt (honly j hj).1 hne)⟩
  refine ⟨fun hk => exec_lookBack_of_ok hr ?_, fun hk hkN => exec_lookAhead_of_ok hr ?_,
    fun hk => exec_lookBack_of_ok hr ?_, fun hk => exec_lookAhead_of_passed hr hpc ?_⟩
  · have hkN : k < s.progLength := hk.trans hpc
    rw [searchBack_skip hk.le fun j hkj hj => hpass j (by omega) (by omega)]
    exact searchBack_of_carries (hinsp k hkN) ((honly k hkN).2 rfl)
  · rw [searchAhead_skip hk.le hkN fun j hj hjk => hpass j (by omega) (by omega)]
    exact searchAhead_of_carries hkN (hinsp k hkN) ((honly k hkN).2 rfl)
  · exact searchBack_skip (Nat.zero_le s.pc) fun j _ hj => hpass j (by omega) (by omega)
  · exact fun j hj hlast => hpass j (by omega) (by omega)

/-! ### The word a search never inspects

The idea: the machine with another program does the same as long as the words its search inspects are
the same. -/

/-- The machine with its program replaced from outside. -/
def State.withProg (p : List ProgWord) (s : State) : State := { s with prog := p }

section WithProg
variable (p : List ProgWord) (s : State)

@[simp] theorem State.withProg_pc : (s.withProg p).pc = s.pc := rfl
@[simp] theorem resolve_withProg (flag : Digit) (operand : Byte) :
    resolve (s.withProg p) flag operand = resolve s flag operand := rfl

theorem labelMatches_withProg {i : Nat} (h : p[i]? = s.prog[i]?) (v : Byte) :
    labelMatches (s.withProg p) i v = labelMatches s i v :=
  congrArg (fun w => (inspectWord s w v).inspectedAt i) h

/-- A backward search asks for no word at index 0 (44_control_flow.md R185). -/
theorem searchBack_withProg (h : ∀ i, 1 ≤ i → p[i]? = s.prog[i]?) (v : Byte) (i : Nat) :
    searchBack (s.withProg p) v i = searchBack s v i := by
  induction i with
  | zero => rfl
  | succ i ih =>
    simp only [searchBack, labelMatches_withProg p s (h (i + 1) (Nat.le_add_left 1 i)), ih]

/-- A forward search asks for no word at the last index (R188). -/
theorem searchAhead_withProg (hlen : p.length = s.progLength)
    (h : ∀ i, i + 1 < s.progLength → p[i]? = s.prog[i]?) (v : Byte) {i : Nat}
    (hi : i ≤ s.progLength - 1) : searchAhead (s.withProg p) v i = searchAhead s v i := by
  have hN : (s.withProg p).progLength = s.progLength := hlen
  induction hi using Nat.decreasingInduction with
  | self => rw [searchAhead_last (s := s.withProg p) (by omega), hN, searchAhead_last (by omega)]
  | of_succ i hi ih =>
    have hnext : i + 1 < s.progLength := by omega
    rw [searchAhead_step hnext, searchAhead_step (s := s.withProg p) (hN ▸ hnext),
      labelMatches_withProg p s (h i hnext), ih]

/-- What an instruction that jumps does, the search it makes being the same with either program. -/
theorem runArmAdvance_jump_withProg (search : ValuePart → Res Nat) (flag : Digit) (operand : Byte) :
    runArmAdvance (s.withProg p) flag operand
        (fun vp => (search vp).map (s.withProg p).jumpTo) =
      mapNext (State.withProg p)
        (runArmAdvance s flag operand fun vp => (search vp).map s.jumpTo) := by
  simp only [runArmAdvance, runArm, resolve_withProg]
  cases resolve s flag operand with
  | raise r => rfl
  | ok vp =>
    simp only [Res.bind_ok]
    cases search vp with
    | raise r => rfl
    | ok j => rfl

theorem exec_lookBack_withProg (h : ∀ i, 1 ≤ i → p[i]? = s.prog[i]?) (da : Byte) (flag : Digit)
    (operand : Byte) :
    exec (.lookBack da flag operand) (s.withProg p) =
      mapNext (State.withProg p) (exec (.lookBack da flag operand) s) := by
  simp only [exec, execLookBack, searchBack_withProg p s h]
  exact runArmAdvance_jump_withProg p s (fun vp => searchBack s vp.value s.pc) flag operand

theorem exec_lookAhead_withProg (hlen : p.length = s.progLength)
    (h : ∀ i, i + 1 < s.progLength → p[i]? = s.prog[i]?) (hpc : s.pc < s.progLength) (da : Byte)
    (flag : Digit) (operand : Byte) :
    exec (.lookAhead da flag operand) (s.withProg p) =
      mapNext (State.withProg p) (exec (.lookAhead da flag operand) s) := by
  have hsearch (v : Byte) : searchAhead (s.withProg p) v s.pc = searchAhead s v s.pc :=
    searchAhead_withProg p s hlen h v (by omega)
  simp only [exec, execLookAhead, State.withProg_pc, hsearch]
  exact runArmAdvance_jump_withProg p s (fun vp => searchAhead s vp.value s.pc) flag operand

end WithProg

/-- Settles O44: the program with another word at index 0 is the same from index 1 up. -/
theorem lookBackNeverInspectsIndexZero : Obligations.LookBackNeverInspectsIndexZero := by
  intro da flag operand s t w ht
  have hsame (i : Nat) (hi : 1 ≤ i) : (s.prog.set 0 w)[i]? = s.prog[i]? :=
    List.getElem?_set_ne (Nat.ne_of_lt hi)
  have h := exec_lookBack_withProg _ s hsame da flag operand
  rwa [ht] at h

/-- Settles O47: the program with another last word has the same length and is the same before it. -/
theorem lookAheadNeverInspectsTheLastIndex : Obligations.LookAheadNeverInspectsTheLastIndex := by
  intro da flag operand s t w hpc ht
  have hsame (i : Nat) (hi : i + 1 < s.progLength) :
      (s.prog.set (s.progLength - 1) w)[i]? = s.prog[i]? :=
    List.getElem?_set_ne (by omega)
  have h := exec_lookAhead_withProg _ s List.length_set hsame hpc da flag operand
  rwa [ht] at h

/-! ### The frame of the control opcodes -/

/-- The three control opcodes write `pc`, or fault (44_control_flow.md R193). -/
theorem ExecNext.of_control {i : Instr} {s t : State} (h : ExecNext i s t)
    (hop : i.opcode ∈ [Opcode.label, .lookBack, .lookAhead]) :
    t = { s with pc := t.pc } ∨ ∃ r, t = s.takeFault r := by
  have hother : ∀ op ∈ [Opcode.label, .lookBack, .lookAhead],
      op ≠ .exit ∧ op ≠ .print ∧ op ≠ .input ∧ writesCell op ≠ true := by decide
  obtain ⟨hexit, hprint, hinput, hwrite⟩ := hother i.opcode hop
  cases h with
  | fault r => exact .inr ⟨r, rfl⟩
  | label | lookBack | lookAhead => exact .inl rfl
  | exit h => exact absurd h hexit
  | write h => exact absurd h hwrite
  | print h => exact absurd h hprint
  | inputDone h | inputFault h => exact absurd h hinput

/-- Settles O50: neither writing `pc` nor fault entry touches the tape. -/
theorem controlFlowFrame : Obligations.ControlFlowFrame := by
  intro i s t hop ht
  rcases (exec_next ht).of_control hop with hpc | ⟨r, rfl⟩
  · have htape : t.tape = s.tape := by rw [hpc]
    exact ⟨fun _ => by rw [htape], .inl hpc⟩
  · exact ⟨fun _ => rfl, .inr ⟨r.kind, r.inspected, rfl⟩⟩

end Sys2Proof.Machine

namespace Sys2Proof.Machine

/-! ### What the arithmetic unit answers, operation by operation

The exact result, narrowed to a byte, is that of the byte operation (45_arithmetic.md R216). -/

section Alu
variable (a b : Byte)

theorem alu_add : alu .add a b = .ok (a + b) := by
  rw [BitVec.add_def, alu]

theorem alu_sub : alu .sub a b = .ok (a - b) := by
  have hnarrow : BitVec.ofInt 8 ((a.toNat : Int) - (b.toNat : Int)) = a - b := by
    apply BitVec.eq_of_toNat_eq
    rw [BitVec.toNat_ofInt, BitVec.toNat_sub]
    omega
  rw [alu, hnarrow]

theorem alu_mul : alu .mul a b = .ok (a * b) := by
  have hnarrow : BitVec.ofNat 8 (a.toNat * b.toNat) = a * b :=
    BitVec.eq_of_toNat_eq (by rw [BitVec.toNat_ofNat, BitVec.toNat_mul])
  rw [alu, hnarrow]

theorem alu_div (hb : b ≠ 0) : alu .div a b = .ok (a / b) := by
  rw [BitVec.udiv_def, alu, if_neg (mt (divisorIsZero_iff b).1 hb)]

theorem alu_mod (hb : b ≠ 0) : alu .mod a b = .ok (a % b) := by
  rw [BitVec.umod_def, alu, if_neg (mt (divisorIsZero_iff b).1 hb)]

theorem alu_zero_divisor {op : ArithOp} (hop : op = .div ∨ op = .mod) :
    alu op a 0 = raiseKind .divideByZero := by
  rcases hop with rfl | rfl <;> rfl

/-- A zero divisor of Div or Mod is all the unit has no byte for (`alu_cases`). -/
theorem alu_completes {op : ArithOp} (h : (op = .div ∨ op = .mod) → b ≠ 0) :
    ∃ r, alu op a b = .ok r := by
  obtain hok | ⟨hop, hb, -⟩ := alu_cases op a b
  · exact hok
  · exact absurd hb (h hop)

end Alu

/-! ### The five arithmetic instructions, by what the unit answers -/

/-- The opcode of each operation of the unit (45_arithmetic.md R210). -/
def ArithOp.opcode : ArithOp → Opcode
  | .add => .add
  | .sub => .sub
  | .mul => .mul
  | .div => .div
  | .mod => .mod

theorem exec_eq_arith {i : Instr} {op : ArithOp} (hi : i.opcode = op.opcode) (s : State) :
    exec i s = arith op i.da i.flag i.operand s := by
  rw [← Instr.ofFields_self i, hi]
  cases op <;> rfl

section ArithOnValidCell
variable {i : Instr} {op : ArithOp} {s : State} (hi : i.opcode = op.opcode)
  (hd : CellValid s i.da) (hr : OperandReadable s i.flag i.operand)
include hi hd hr

/-- A byte from the unit goes to the cell, and the instruction advances (R210). -/
theorem exec_of_alu_ok {r : Byte}
    (h : alu op (s.tape.read i.da.toNat) (operandValue s i.flag i.operand) = .ok r) :
    exec i s = .next (wroteCell s i.da.toNat r) := by
  rw [exec_eq_arith hi, arith_of_valid hr hd, h, Res.map_ok, settle_ok]

/-- Div and Mod by a resolved zero fault, whatever the cell holds (R217). -/
theorem exec_of_zero_divisor (hop : op = .div ∨ op = .mod)
    (hzero : operandValue s i.flag i.operand = 0) :
    exec i s = .next (faultState s .divideByZero none) := by
  rw [exec_eq_arith hi, arith_of_valid hr hd, hzero, alu_zero_divisor _ hop]
  rfl

/-- Apart from a zero divisor, an arithmetic instruction writes its cell and advances. -/
theorem exec_arith_completes
    (h : (op = .div ∨ op = .mod) → operandValue s i.flag i.operand ≠ 0) :
    ∃ r, exec i s = .next (wroteCell s i.da.toNat r) :=
  let ⟨r, hr'⟩ := alu_completes (s.tape.read i.da.toNat) _ h
  ⟨r, exec_of_alu_ok hi hd hr hr'⟩

end ArithOnValidCell

/-- Under the default configuration the word of an instruction decodes to it (R88, D1). -/
theorem decode_default_encode (i : Instr) :
    decode Config.default (.word (encode Config.default i)) = .instr i :=
  decodeOfEncodeIsTheInstruction _ i (Instr.wf_of_opMap_wf (by decide) i)

/-! ### Wraparound -/

/-- Settles O30: the byte sum is the sum, less 256 when that exceeds 255. -/
theorem addWrapsModulo256 : Obligations.AddWrapsModulo256 := by
  refine ⟨fun da flag operand => decode_default_encode (.add da flag operand),
    fun da flag operand s hd hr => ⟨_, exec_of_alu_ok (op := .add) rfl hd hr (alu_add _ _), ?_⟩⟩
  simp only [Instr.da, Instr.flag, Instr.operand]
  have hsum := BitVec.toNat_add (s.tape.read da.toNat) (operandValue s flag operand)
  exact ⟨hsum, by omega, by omega⟩

/-- Settles O31: the byte difference is the difference, plus 256 when that is negative. -/
theorem subWrapsModulo256 : Obligations.SubWrapsModulo256 := by
  refine ⟨fun da flag operand => decode_default_encode (.sub da flag operand),
    fun da flag operand s hd hr => ⟨_, exec_of_alu_ok (op := .sub) rfl hd hr (alu_sub _ _), ?_⟩⟩
  simp only [Instr.da, Instr.flag, Instr.operand]
  have hdiff := BitVec.toNat_sub (s.tape.read da.toNat) (operandValue s flag operand)
  exact ⟨by omega, by omega, by omega⟩

/-- Settles O32: a byte product is the product modulo 256. -/
theorem mulKeepsTheLowByte : Obligations.MulKeepsTheLowByte :=
  ⟨fun da flag operand => decode_default_encode (.mul da flag operand),
    fun _ _ _ _ hd hr =>
      ⟨_, exec_of_alu_ok (op := .mul) rfl hd hr (alu_mul _ _), BitVec.toNat_mul _ _⟩⟩

/-- Settles O37: only Div and Mod can fail to complete (`exec_arith_completes`), and writing the cell
and advancing leaves `run`, `status` and `cause`. -/
theorem overflowIsNoFault : Obligations.OverflowIsNoFault := by
  intro i s hmem hd hr
  obtain ⟨op, hop, hi⟩ := (List.mem_map (f := ArithOp.opcode) (l := [.add, .sub, .mul])).1 hmem
  have hnodiv : ¬ (op = .div ∨ op = .mod) := by
    rintro (rfl | rfl) <;> simp at hop
  obtain ⟨r, hexec⟩ := exec_arith_completes hi.symm hd hr fun h => absurd h hnodiv
  exact ⟨_, hexec, rfl, rfl, rfl, rfl⟩

/-! ### Division -/

/-- Settles O33: quotient and remainder of the two bytes, as natural numbers. -/
theorem divAndModDecomposeTheCell : Obligations.DivAndModDecomposeTheCell := by
  intro da flag operand s hd hr hne
  refine ⟨_, _, exec_of_alu_ok (op := .div) rfl hd hr (alu_div _ _ hne),
    exec_of_alu_ok (op := .mod) rfl hd hr (alu_mod _ _ hne), ?_, ?_⟩
  · rw [BitVec.toNat_udiv, BitVec.toNat_umod]
    exact (Nat.div_add_mod _ _).symm
  · rw [BitVec.toNat_umod]
    exact Nat.mod_lt _ (Nat.pos_of_ne_zero fun h => hne (BitVec.eq_of_toNat_eq h))

/-- A literal zero divisor faults in every state, the cell in range or not (R217, R245). -/
theorem exec_literal_zero_faults {i : Instr} {op : ArithOp} {s : State} (hi : i.opcode = op.opcode)
    (hop : op = .div ∨ op = .mod) (himm : i.flag ≠ s.cfg.indMark) (hzero : i.operand = 0) :
    ∃ k, exec i s = .next (faultState s k none) := by
  have hr : OperandReadable s i.flag i.operand := fun hind => absurd hind himm
  by_cases hd : CellValid s i.da
  · exact ⟨_, exec_of_zero_divisor hi hd hr hop ((operandValue_of_immediate himm _).trans hzero)⟩
  · exact ⟨_, (exec_eq_arith hi s).trans (arith_of_cell_out_of_range hr hd)⟩

/-- Settles O34: a zero divisor is the one thing Div and Mod fault on, the operand readable and the
cell in range. -/
theorem zeroDivisorFaults : Obligations.ZeroDivisorFaults := by
  refine ⟨fun da flag s himm =>
    ⟨exec_literal_zero_faults (op := .div) rfl (.inl rfl) himm rfl,
      exec_literal_zero_faults (op := .mod) rfl (.inr rfl) himm rfl⟩,
    fun i s hmem hd hr => ?_⟩
  obtain ⟨op, hmem, hi⟩ := (List.mem_map (f := ArithOp.opcode) (l := [.div, .mod])).1 hmem
  have hop : op = .div ∨ op = .mod := by simpa using hmem
  refine ⟨fun hzero => ⟨exec_of_zero_divisor hi.symm hd hr hop hzero, rfl, rfl, rfl, rfl, rfl⟩,
    fun hne => ?_, fun himm => by rw [operandValue_of_immediate himm],
    fun hind => by rw [operandValue_of_indirect hind]⟩
  obtain ⟨r, hexec⟩ := exec_arith_completes hi.symm hd hr fun _ => hne
  exact ⟨_, hexec, rfl, rfl⟩

/-! ### A cell combined with itself -/

/-- With the operand indirect through the destination, the unit combines the cell with itself. -/
theorem arith_self_of_alu_ok {op : ArithOp} {x : Byte} {s : State} {r : Byte} (hd : CellValid s x)
    (h : alu op (s.tape.read x.toNat) (s.tape.read x.toNat) = .ok r) :
    arith op x s.cfg.indMark x s = .next (wroteCell s x.toNat r) := by
  rw [arith_of_valid (fun _ => hd) hd, operandValue_of_indirect rfl, h, Res.map_ok, settle_ok]

/-- Settles O35: the resolved value is the cell itself (`arith_self_of_alu_ok`). -/
theorem sameCellOnBothSides : Obligations.SameCellOnBothSides := by
  intro x s hd
  refine ⟨⟨_, arith_self_of_alu_ok (op := .add) hd (alu_add _ _), ?double⟩,
    arith_self_of_alu_ok (op := .sub) hd ?clear,
    ⟨_, arith_self_of_alu_ok (op := .mul) hd (alu_mul _ _), ?square⟩,
    fun hne => ⟨arith_self_of_alu_ok (op := .div) hd ?quotient,
      arith_self_of_alu_ok (op := .mod) hd ?remainder⟩,
    fun hzero => ?fault⟩
  case double => rw [BitVec.toNat_add, two_mul]
  case clear => rw [alu_sub, BitVec.sub_self]; rfl
  case square => rw [BitVec.toNat_mul, pow_two]
  case quotient => rw [alu_div _ _ hne, BitVec.udiv_self, if_neg (by simpa using hne)]; rfl
  case remainder => rw [alu_mod _ _ hne, BitVec.umod_self]; rfl
  case fault =>
    have hv : operandValue s s.cfg.indMark x = 0 := (operandValue_of_indirect rfl x).trans hzero
    exact ⟨exec_of_zero_divisor (op := .div) rfl hd (fun _ => hd) (.inl rfl) hv,
      exec_of_zero_divisor (op := .mod) rfl hd (fun _ => hd) (.inr rfl) hv⟩

end Sys2Proof.Machine

namespace Sys2Proof.Machine

/-! ### Fault entry: what a step that faults writes -/

/-- An instruction that faults is its fault entry, for an Input also with its line consumed
(60_exceptions.md R246). -/
theorem ExecNext.faulted {i : Instr} {s t : State} (h : ExecNext i s t) (hrun : s.run = .running)
    (hfault : t.run = .haltedFault) :
    ∃ r, t = s.takeFault r ∨ i.opcode = .input ∧ t = s.consumeLine.takeFault r := by
  have hne : s.run ≠ .haltedFault := by simp [hrun]
  cases h with
  | fault r => exact ⟨r, .inl rfl⟩
  | inputFault hop _ _ _ r => exact ⟨r, .inr ⟨hop, rfl⟩⟩
  | exit => exact nomatch hfault
  | write | print | label | lookBack | lookAhead | inputDone => exact absurd hfault hne

/-- A step that faults is fault entry, and where it has consumed a line the word at `pc` is an
Input. -/
theorem step_faulted {s t : State} (h : step s = .next t) (hfault : t.run = .haltedFault) :
    ∃ r, t = s.takeFault r ∨ t = s.consumeLine.takeFault r ∧
      ∃ w i, s.prog[s.pc]? = some w ∧ decode s.cfg w = .instr i ∧ i.opcode = .input := by
  obtain ⟨hrun, ⟨-, rfl⟩ | ⟨w, hw, ⟨-, rfl⟩ | ⟨i, hd, hi⟩⟩⟩ := step_next h
  · exact nomatch hfault
  · exact ⟨_, .inl rfl⟩
  · obtain ⟨r, ht | ⟨hop, ht⟩⟩ := hi.faulted hrun hfault
    · exact ⟨r, .inl ht⟩
    · exact ⟨r, .inr ⟨ht, w, i, hw, hd, hop⟩⟩

/-- Settles O14: fault entry writes `run`, `status` and `cause`, and before it only an Input's line
has been consumed (`step_faulted`). -/
theorem faultEntryWritesOnlyItsRecord : Obligations.FaultEntryWritesOnlyItsRecord := by
  intro s t ht hfault
  obtain ⟨r, rfl | ⟨rfl, w, i, hw, hd, hop⟩⟩ := step_faulted ht hfault
  · exact ⟨rfl, rfl, rfl, .inl rfl, r.kind, r.inspected, rfl, rfl⟩
  · have hinput : i = .input i.da i.flag i.operand := by
      rw [← Instr.ofFields_self i, hop]
      rfl
    exact ⟨rfl, rfl, rfl, .inr ⟨rfl, w, i.da, i.flag, i.operand, hw, hd.trans (congrArg _ hinput)⟩,
      r.kind, r.inspected, rfl, rfl⟩

/-- The class of a tape fault is the one `OOR_CLASS` names (60_exceptions.md R242, D11). -/
theorem tapeRange_status_of_oorClass {c : Config} (a : Nat) :
    (c.oorClass = .rainbowException → (FaultKind.tapeRange a).status c = .rainbowException) ∧
    (c.oorClass = .internalException → (FaultKind.tapeRange a).status c = .internalException) :=
  ⟨fun h => by simp only [FaultKind.status, h], fun h => by simp only [FaultKind.status, h]⟩

/-- Settles O15: DecodeFault and DivideByZero have a fixed class, a tape fault that of `OOR_CLASS`
(`tapeRange_status_of_oorClass`). -/
theorem faultClassesAsSpecified : Obligations.FaultClassesAsSpecified :=
  fun _ => ⟨rfl, rfl, tapeRange_status_of_oorClass⟩

end Sys2Proof.Machine

namespace Sys2Proof.Machine

/-! ### What construction and reset leave -/

/-- A running machine shows the host no exit status (10_state.md R25, R34). -/
theorem exitStatus?_of_running {s : State} (hrun : s.run = .running) : s.exitStatus? = none := by
  simp only [State.exitStatus?, hrun]

/-- The default `TAPE_INIT` lists no cell, and an unlisted cell reads 0 (92_eei_decisions.md D6). -/
theorem read_default_tapeInit (a : Nat) : Memory.read Config.default.tapeInit a = 0 :=
  Memory.read_nil a

/-- Settles O1: every field is the one construction writes; the run is `running`, so no status can be
read (`exitStatus?_of_running`), and the tape at reset is the default `TAPE_INIT`
(`read_default_tapeInit`). -/
theorem constructionLeavesResetValues : Obligations.ConstructionLeavesResetValues :=
  ⟨fun _ _ _ => ⟨rfl, rfl, rfl, rfl, rfl, rfl, rfl, rfl, fun _ => rfl, exitStatus?_of_running rfl⟩,
    rfl, read_default_tapeInit⟩

end Sys2Proof.Machine
